-- ==== Sys2Proof/Word.lean ====
section
/-! DEFINITION. The two value types every file of the model uses. -/

namespace Sys2Proof

/-- A byte is 8 bits (20_memory R40). -/
abbrev Byte := BitVec 8

/-- `Num`, the type of the real-valued operands: a finite real, modelled by the rationals (00_scope R12). -/
abbrev FcNum := Rat

end Sys2Proof
end

