-- ==== Sys2Proof/Config.lean ====
section
/-! DEFINITION. The parameters of 00_scope section 5 (the record's defaults stand in Machine/Operands.lean) and the one
free value of the model. -/

namespace Sys2Proof

/-! ### Structural parameters (00_scope R8, "fixed by the source")

Each is named once and quoted wherever the model depends on it. They are constants and not fields of `Params`: DESIGN
CHOICE (log 22), since the widths are the widths of the model's types. -/

/-- `ID_BITS`, the width of the frame identifier. -/
abbrev idBits : Nat := 29

/-- `AID_BITS`, the width of the actuator id. -/
abbrev aidBits : Nat := 8

/-- `OPC_BITS`, the width of the opcode. -/
abbrev opcBits : Nat := 8

/-- `OPC_SHIFT`, the left shift of the opcode inside the identifier. -/
abbrev opcShift : Nat := 8

/-- `MAX_DLC`, the largest payload length in bytes and the size of `BUF` (10_state R21). -/
abbrev maxDlc : Nat := 8

/-- `FB_DLC`, the only payload length of a feedback frame. -/
abbrev fbDlc : Nat := 8

/-! ### Parameters that an instance chooses -/

/-- `FLOAT_FMT` (00_scope R12): which reals can appear as operands. -/
inductive FloatFmt where
  | exact | binary32 | binary64
deriving DecidableEq, Repr

/-- `MUL_MODE` (00_scope R12): whether `value × scale` is exact or rounded to nearest-even in `FLOAT_FMT`. -/
inductive MulMode where
  | exact | rounded
deriving DecidableEq, Repr

/-- The parameter record of FC (00_scope R9 to R12), fixed for the life of the machine (10_state R27, R35). -/
structure Params where
  opcDuty : BitVec opcBits
  opcCurrent : BitVec opcBits
  opcBrake : BitVec opcBits
  opcVelocity : BitVec opcBits
  opcPosition : BitVec opcBits
  opcOrigin : BitVec opcBits
  opcPosprof : BitVec opcBits
  scaleDuty : Nat
  scaleCurrent : Nat
  scaleBrake : Nat
  scaleVelocity : Nat
  scalePosition : Nat
  lsbPosition : Rat
  lsbVelocity : Rat
  lsbCurrent : Rat
  floatFmt : FloatFmt
  mulMode : MulMode
deriving DecidableEq, Repr

/-- DESIGN CHOICE (log 8), safe: a free value. Under `MUL_MODE` = rounded a product may lie beyond the largest finite
number of `FLOAT_FMT`; the spec states no integer for it. The command runs with this integer in place of the truncated
product. Nothing constrains it. -/
opaque Config.overflowTrunc : FloatFmt → Rat → Int

end Sys2Proof
end

