-- ==== Sys2Proof/Syntax.lean ====
section
/-! DEFINITION. Frames, the operand records of the ports, and the instruction set: one constructor per row of
spec/opcode_table.json. -/

namespace Sys2Proof

/-- `CommandKind`, the closed set of seven (00_scope R18, 30_encoding R70). -/
inductive Kind where
  | duty | current | currentBrake | velocity | position | setOrigin | positionProfile
deriving DecidableEq, Repr

/-- A frame (00_scope R17, 30_encoding R60): extended-format flag, 29-bit identifier, 4-bit length, payload with
`data[0]` first. -/
structure Frame where
  ide : Bool
  id : BitVec idBits
  dlc : BitVec 4
  data : List Byte
deriving DecidableEq, Repr

/-- A real-valued operand as the host holds it before the call (40_codec_primitives R102): the real itself, or the bits
of a binary32 or binary64 number, which the boundary converts or refuses (log 9). -/
inductive HostNum where
  | exact (q : FcNum)
  | binary32 (w : BitVec 32)
  | binary64 (w : BitVec 64)
deriving DecidableEq, Repr

/-- The operation names of the PRIM port (10_state R32, 30_encoding R76). -/
inductive PrimOp where
  | clr | appendI32Be | appendI16Be | appendU8 | readI16Be | readI8 | readU8
deriving DecidableEq, Repr

/-- One operand record on an input port of FC. -/
inductive Request where
  /-- The CMD port's record (10_state R29) with the kind as its 3-bit code (30_encoding R70). -/
  | cmd (kind : BitVec 3) (aid : BitVec aidBits) (val : HostNum) (mode : BitVec 8) (vlim alim : Int)
  /-- The RX port's record (10_state R28). -/
  | rx (expId : BitVec aidBits) (frame : Frame)
  /-- The PRIM port's record (10_state R32). -/
  | prim (op : PrimOp) (value : Int) (bytes : List Byte) (offset : Nat)
deriving DecidableEq, Repr

/-- What the host can do to FC between two operations: present an operand record, or reset it (70_reset R200). -/
inductive Input where
  | op (r : Request)
  | reset
deriving DecidableEq, Repr

/-- The operations of FC with the operands each one uses (30_encoding R76). -/
inductive Instr where
  | duty (aid : BitVec aidBits) (val : FcNum)
  | current (aid : BitVec aidBits) (val : FcNum)
  | currentBrake (aid : BitVec aidBits) (val : FcNum)
  | velocity (aid : BitVec aidBits) (val : FcNum)
  | position (aid : BitVec aidBits) (val : FcNum)
  | setOrigin (aid : BitVec aidBits) (mode : BitVec 8)
  | positionProfile (aid : BitVec aidBits) (val : FcNum) (vlim alim : Int)
  | decodeFeedback (expId : BitVec aidBits) (frame : Frame)
  | clr
  | appendI32Be (value : Int)
  | appendI16Be (value : Int)
  | appendU8 (value : Int)
  | readI16Be (bytes : List Byte) (offset : Nat)
  | readI8 (bytes : List Byte) (offset : Nat)
  | readU8 (bytes : List Byte) (offset : Nat)
deriving DecidableEq, Repr

end Sys2Proof
end

