-- ==== Sys2Proof/Machine/Operands.lean ====
section
/-! DEFINITION. Parameters' defaults, the integer conversions of 00_scope R15, big-endian bytes, the product and its
rounding (`QUANT`, 40_codec_primitives R97), and the boundary conversion of host floats. -/

namespace Sys2Proof.Machine

/-! ### Parameters -/

/-- The defaults of 00_scope R9 to R12. The opcodes are PRESUMED (log 5), unsafe: the spec takes them from general
knowledge; the other literals are the source's. -/
def defaultParams : Params :=
  { opcDuty := 0, opcCurrent := 1, opcBrake := 2, opcVelocity := 3, opcPosition := 4, opcOrigin := 5, opcPosprof := 6
    scaleDuty := 100000, scaleCurrent := 1000, scaleBrake := 1000, scaleVelocity := 1, scalePosition := 10000
    lsbPosition := mkRat 1 10, lsbVelocity := 10, lsbCurrent := mkRat 1 100
    floatFmt := .exact, mulMode := .exact }

/-- `TICK_PERIOD` in milliseconds; only the host contract speaks of it (00_scope R13). -/
def tickPeriodMs : Nat := 10

/-- `RX_PER_TICK`; only the host contract speaks of it (00_scope R13). -/
def rxPerTick : Nat := 1

/-- `OPC[KIND]` (00_scope R11). -/
def opcodeOf (p : Params) : Kind → BitVec opcBits
  | .duty => p.opcDuty
  | .current => p.opcCurrent
  | .currentBrake => p.opcBrake
  | .velocity => p.opcVelocity
  | .position => p.opcPosition
  | .setOrigin => p.opcOrigin
  | .positionProfile => p.opcPosprof

/-- The scales are positive integers (40_codec_primitives R97: "`S` a positive integer scale"). -/
def paramsPositive (p : Params) : Bool :=
  decide (0 < p.scaleDuty) && decide (0 < p.scaleCurrent) && decide (0 < p.scaleBrake) &&
    decide (0 < p.scaleVelocity) && decide (0 < p.scalePosition)

/-! ### Integer conversions (00_scope R15) -/

/-- `wrap_N(n)`: the N-bit quantity congruent to `n` modulo 2^N. -/
def wrap (N : Nat) (n : Int) : BitVec N := BitVec.ofInt N n

/-- `sext_N(u)`: the signed reading of an N-bit pattern. -/
def sext {N : Nat} (u : BitVec N) : Int := u.toInt

/-- `zext_N(u)`: the quantity itself, as a non-negative integer. -/
def zext {N : Nat} (u : BitVec N) : Nat := u.toNat

/-- `trunc(q)`: the integer part of `q` toward zero. -/
def trunc (q : Rat) : Int := if 0 ≤ q then q.floor else -(-q).floor

/-- `be_N(u)`: the N/8 bytes of `u`, most significant first (also 20_memory R41). -/
def beBytes {N : Nat} (u : BitVec N) : List Byte :=
  (List.range (N / 8)).map fun k => u.extractLsb' (N - 8 - 8 * k) 8

/-- `be_uint(bs)`: the number whose big-endian bytes are `bs`. -/
def beUint (bs : List Byte) : Nat := bs.foldl (fun acc b => acc * 256 + b.toNat) 0

/-- The identifier of an emitted frame, `(opc << OPC_SHIFT) | aid` in `ID_BITS` bits (30_encoding R61,
41_command_encoder R110). -/
def identifier (opc : BitVec opcBits) (aid : BitVec aidBits) : BitVec idBits :=
  (opc.setWidth idBits <<< opcShift) ||| aid.setWidth idBits

/-! ### Products -/

/-- Integer times rational, exactly; written through the numerator so that the kernel evaluates it. -/
def scaleRat (n : Int) (q : Rat) : Rat := mkRat (n * q.num) q.den

/-- The quotient `n / d` rounded to the nearest natural number, ties to even. -/
def roundHalfEven (n d : Nat) : Nat :=
  if 2 * (n % d) < d ∨ (2 * (n % d) = d ∧ n / d % 2 = 0) then n / d else n / d + 1

/-- The exponent `e` with `2^e ≤ n/d < 2^(e+1)`, for positive `n` and `d`. -/
def ilog2 (n d : Nat) : Int :=
  let e : Int := (n.log2 : Int) - d.log2
  if d * 2 ^ e.toNat ≤ n * 2 ^ (-e).toNat then e else e - 1

/-- Precision and exponent range of a binary format: PRESUMED (log 7), unsafe. -/
def fmtGeometry : FloatFmt → Option (Nat × Int × Int)
  | .exact => none
  | .binary32 => some (24, -126, 127)
  | .binary64 => some (53, -1022, 1023)

/-- `q` rounded to nearest-even in the format, `none` where the result is beyond the format's largest finite number
(00_scope R12; the format itself PRESUMED, log 7). The magnitude is an integer `m` of units `2^k`; it is beyond the
format when the unit is, or when the largest unit carries out of the precision. -/
def roundTo (fmt : FloatFmt) (q : Rat) : Option Rat :=
  match fmtGeometry fmt with
  | none => some q
  | some (prec, emin, emax) =>
    if q.num = 0 then some 0
    else
      let n := q.num.natAbs
      let k : Int := max (ilog2 n q.den) emin - (prec - 1)
      let m := roundHalfEven (n * 2 ^ (-k).toNat) (q.den * 2 ^ k.toNat)
      if emax - (prec - 1) < k ∨ (k = emax - (prec - 1) ∧ 2 ^ prec ≤ m) then none
      else some (mkRat (q.num.sign * (m * 2 ^ k.toNat : Nat)) (2 ^ (-k).toNat))

/-- Whether the format has the number (`FLOAT_FMT` "restricts which reals can appear as operands", 00_scope R12). -/
def representable (fmt : FloatFmt) (q : Rat) : Bool := decide (roundTo fmt q = some q)

/-- `trunc(VAL * SCALE)` under the parameters (40_codec_primitives R97): the exact product, or the product rounded in
`FLOAT_FMT` first; where that rounding overflows the format, the free value of log 8. -/
def scaledTrunc (p : Params) (v : FcNum) (S : Nat) : Int :=
  match p.mulMode with
  | .exact => trunc (scaleRat S v)
  | .rounded =>
    match roundTo p.floatFmt (scaleRat S v) with
    | some r => trunc r
    | none => Config.overflowTrunc p.floatFmt (scaleRat S v)

/-- `QUANT(v, S)` (40_codec_primitives R97). -/
def quant (p : Params) (v : FcNum) (S : Nat) : BitVec 32 := wrap 32 (scaledTrunc p v S)

/-! ### The boundary: host floats to `Num` -/

/-- The real that a binary interchange pattern denotes, `none` for a not-a-number or an infinity. The layout (sign,
exponent, fraction, bias) is PRESUMED (log 9), unsafe. -/
def numOfBits (expBits fracBits : Nat) (w : Nat) : Option FcNum :=
  let frac := w % 2 ^ fracBits
  let ex := w / 2 ^ fracBits % 2 ^ expBits
  let neg := w / 2 ^ (fracBits + expBits) % 2 = 1
  let bias : Nat := 2 ^ (expBits - 1) - 1
  if ex = 2 ^ expBits - 1 then none
  else
    let m : Nat := if ex = 0 then frac else 2 ^ fracBits + frac
    let e : Int := (if ex = 0 then 1 else (ex : Int)) - bias - fracBits
    some (mkRat ((if neg then -1 else 1) * (m * 2 ^ e.toNat : Nat)) (2 ^ (-e).toNat))

/-- The host's conversion "to the real it denotes before the call", refusing the values that denote none
(40_codec_primitives R102, 93 U3). -/
def hostNum : HostNum → Option FcNum
  | .exact q => some q
  | .binary32 w => numOfBits 8 23 w.toNat
  | .binary64 w => numOfBits 11 52 w.toNat

end Sys2Proof.Machine
end

