-- ==== Sys2Proof/Machine/State.lean ====
section
/-! DEFINITION. The state of FC with its ports, the responses of its operations, and the reasons a step can stop. -/

namespace Sys2Proof.Machine

/-- `BUF` as address and byte pairs, addresses strictly rising; an unlisted address holds no value (log 4). -/
abbrev Memory := List Host.Cell

/-- The four faults an operation can answer with, each with the info it records (60_exceptions R161). They are
responses, not stops of the machine (60_exceptions R160, log 11). -/
inductive FaultCause where
  | invalidParameter (mode : BitVec 8)
  | invalidKind (code : BitVec 3)
  | bufferOverflow (cur : BitVec 4)
  | readOutOfRange (offset : Nat)
deriving DecidableEq, Repr

/-- The response of one operation (60_exceptions R160). A frame or a sample it outputs goes to its own port. -/
inductive Response where
  /-- Ended; what it outputs, if anything, stands on the TX or TLM port. -/
  | ok
  /-- Ended with the integer a read primitive returns. -/
  | value (n : Int)
  /-- An inbound frame that was not accepted; not an error (60_exceptions R166). -/
  | discard
  /-- A fault. -/
  | fault (f : FaultCause)
deriving DecidableEq, Repr

/-- The five integers of a feedback payload before scaling (42_feedback_decoder R142). -/
structure Raw where
  pos : Int
  vel : Int
  cur : Int
  temp : Int
  err : Nat
deriving DecidableEq, Repr

/-- The telemetry sample (42_feedback_decoder R144); `temperature` and `error_code` are `temp` and `err` unchanged. -/
structure Sample where
  posRaw : Int
  velRaw : Int
  curRaw : Int
  temp : Int
  err : Nat
  position : Rat
  velocity : Rat
  current : Rat
deriving DecidableEq, Repr

/-- The machine. -/
structure State where
  /-- The parameter record; no step changes it (10_state R27, R35; log 5). -/
  params : Params
  /-- `BUF`, addresses 0 to 7 (10_state R20, R21). -/
  buf : Memory
  /-- `CUR`, values 0 to 8 (10_state R20, R22). -/
  cur : BitVec 4
  /-- What the host presents from here on, the next first (10_state R26; log 1). -/
  inputs : List Input
  /-- The frames put on the TX port so far, oldest first (10_state R30, 20_memory R49; log 3). -/
  tx : List Frame
  /-- The samples put on the TLM port so far, oldest first (10_state R31, 20_memory R49; log 3). -/
  tlm : List Sample
  /-- The responses of the operations ended so far, oldest first (60_exceptions R160; log 3). -/
  responses : List Response
deriving DecidableEq, Repr

/-- Why the machine stops with a fault. -/
inductive Fault where
  /-- A byte of `BUF` that has no value is read (93 U6). Raised by `peek` and by the composer through it; safe: the
  model says nothing there. No operation reaches it. -/
  | unspecifiedByte (addr : Nat)
deriving DecidableEq, Repr

/-- Why a step gives no meaning to what is presented. -/
inductive Refusal where
  /-- An instruction that the dispatcher gives no meaning; raised by no arm of this model; safe. -/
  | notModelled (mnemonic : String)
  /-- A not-a-number or an infinity presented as `VAL` (93 U3: "refuse at the boundary"); raised by the fetch; safe. -/
  | nonFinite
  /-- An operand record that no port can carry (10_state R28, R29, R32; log 10); raised by the fetch, and by
  `execDecodeFeedback` for a frame whose payload is not `dlc` bytes long; safe. -/
  | malformedOperand
deriving DecidableEq, Repr

/-- FC right after reset (10_state R34, 70_reset R201): `CUR` = 0, no byte of `BUF` has a value, nothing is on a port,
and the parameters stand at their defaults (log 5). -/
def State.reset : State :=
  { params := defaultParams, buf := [], cur := 0, inputs := [], tx := [], tlm := [], responses := [] }

end Sys2Proof.Machine
end

