-- ==== Sys2Proof/Machine/Flags.lean ====
section
/-! DEFINITION. FC has no status flag (10_state R27): the result of an operation is its response. What stands here is
what decides the response, the condition tests of the rules and the fault codes. -/

namespace Sys2Proof.Machine

/-- An append of `n` bytes is performed only when `CUR + n ≤ 8` (20_memory R44). -/
def appendFits (cur : BitVec 4) (n : Nat) : Bool := decide (cur.toNat + n ≤ maxDlc)

/-- A read of `n` bytes is performed only when `OFFSET + n ≤ L` (20_memory R45). -/
def readFits (bytes : List Byte) (offset n : Nat) : Bool := decide (offset + n ≤ bytes.length)

/-- SetOrigin's legal modes: 0 temporary, 1 permanent, 2 restore-default (41_command_encoder R117). -/
def legalMode (mode : BitVec 8) : Bool := decide (mode.toNat ≤ 2)

/-- The acceptance filter (42_feedback_decoder R140). -/
def accept (f : Frame) (expId : BitVec aidBits) : Bool :=
  f.ide && f.dlc == BitVec.ofNat 4 fbDlc && f.id.extractLsb' 0 aidBits == expId

/-- The numeric code of a fault (60_exceptions R161). -/
def faultCode : FaultCause → Nat
  | .invalidParameter _ => 1
  | .invalidKind _ => 2
  | .bufferOverflow _ => 3
  | .readOutOfRange _ => 4

end Sys2Proof.Machine
end

