-- ==== Sys2Proof/Machine/Ops.lean ====
section
/-! DEFINITION. The named operations over the state: `BUF` byte access, `MemRead` and `MemWrite`, the ports, ending an
operation with a fault, the reset event. -/

namespace Sys2Proof.Machine

/-- The outcome of an operation. -/
abbrev Result := Host.Outcome State Fault Refusal

/-! ### `BUF` (20_memory R40) -/

/-- The byte at an address of `BUF`, none where nothing has given it a value (log 4). -/
def bufRead : Memory → Nat → Option Byte
  | [], _ => none
  | (x, y) :: m, a => if x = a then some y else bufRead m a

/-- One byte written; the addresses stay in rising order. -/
def bufWrite : Memory → Nat → Byte → Memory
  | [], a, b => [(a, b)]
  | (x, y) :: m, a, b =>
    if a < x then (a, b) :: (x, y) :: m
    else if a = x then (a, b) :: m
    else (x, y) :: bufWrite m a b

/-- `MemWrite` of a byte list: the first byte at the lowest address (00_scope R16, 20_memory R41). -/
def writeBytes (m : Memory) (addr : Nat) : List Byte → Memory
  | [] => m
  | b :: bs => writeBytes (bufWrite m addr b) (addr + 1) bs

/-- The canonical form of `BUF`: addresses 0 to 7, strictly rising. -/
def memoryWf (m : Memory) : Bool :=
  decide ((m.map Prod.fst).Pairwise (· < ·)) && m.all fun c => decide (c.1 < maxDlc)

/-! ### `RXD` (20_memory R40, R41, R45) -/

/-- The quantity `MemRead(addr, n)` returns: `n` bytes, the most significant at the lowest address (00_scope R16). -/
def memWord (rxd : List Byte) (addr n : Nat) : BitVec (8 * n) :=
  BitVec.ofNat (8 * n) (beUint ((rxd.drop addr).take n))

/-- `MemRead(addr, n)` on a byte list, under the bounds check of 20_memory R45. -/
def memRead (rxd : List Byte) (addr n : Nat) : Except FaultCause (BitVec (8 * n)) :=
  if readFits rxd addr n then .ok (memWord rxd addr n) else .error (.readOutOfRange addr)

/-! ### State updates -/

/-- `CUR <- v`. -/
def State.setCur (s : State) (v : BitVec 4) : State := { s with cur := v }

/-- `BUF` replaced. -/
def State.setBuf (s : State) (m : Memory) : State := { s with buf := m }

/-- `emit TX(f)` (00_scope R16). -/
def State.emitTx (s : State) (f : Frame) : State := { s with tx := s.tx ++ [f] }

/-- `emit TLM(x)` (00_scope R16). -/
def State.emitTlm (s : State) (x : Sample) : State := { s with tlm := s.tlm ++ [x] }

/-- The operation ends with a response (60_exceptions R160). -/
def State.respond (s : State) (r : Response) : State := { s with responses := s.responses ++ [r] }

/-- What the host presents after this. -/
def State.setInputs (s : State) (l : List Input) : State := { s with inputs := l }

/-! ### Ending an operation -/

/-- `raise Fault(info)`: this is FC's whole exception entry. The response is the fault, no other state is written and
nothing is emitted (00_scope R16, 60_exceptions R160, R171); there is nothing to return from (R172). -/
def raiseFault (f : FaultCause) (s : State) : Result := .next (s.respond (.fault f))

/-- `discard` (00_scope R16, 60_exceptions R160). -/
def discardFrame (s : State) : Result := .next (s.respond .discard)

/-- The reset event (70_reset R200 to R202): `CUR` = 0 and no byte of `BUF` has a value; nothing is emitted and nothing
that has left on a port is taken back (log 13). -/
def resetEvent (s : State) : State := (s.setBuf []).setCur 0

end Sys2Proof.Machine
end

