-- ==== Sys2Proof/Machine/Pack.lean ====
section
/-! DEFINITION. FC-PACK, the integer packer and unpacker (40_codec_primitives). -/

namespace Sys2Proof.Machine

/-- The body of every append: bounds check, write at `CUR`, advance (40_codec_primitives R92 to R94). -/
def append (bs : List Byte) (s : State) : Except FaultCause State :=
  if appendFits s.cur bs.length then
    .ok ((s.setBuf (writeBytes s.buf s.cur.toNat bs)).setCur (s.cur + BitVec.ofNat 4 bs.length))
  else .error (.bufferOverflow s.cur)

/-- An append as an operation of the PRIM port. -/
def appendOp (bs : List Byte) (s : State) : Result :=
  match append bs s with
  | .ok t => .next (t.respond .ok)
  | .error f => raiseFault f s

/-- A read as an operation of the PRIM port: the integer is the response. -/
def readOp (r : Except FaultCause Int) (s : State) : Result :=
  match r with
  | .ok n => .next (s.respond (.value n))
  | .error f => raiseFault f s

/-- The integer `READ_I16_BE` returns (40_codec_primitives R95). -/
def readI16 (bytes : List Byte) (offset : Nat) : Except FaultCause Int := (memRead bytes offset 2).map sext

/-- The integer `READ_I8` returns (40_codec_primitives R96). -/
def readI8 (bytes : List Byte) (offset : Nat) : Except FaultCause Int := (memRead bytes offset 1).map sext

/-- The integer `READ_U8` returns (40_codec_primitives R98). -/
def readU8 (bytes : List Byte) (offset : Nat) : Except FaultCause Nat := (memRead bytes offset 1).map zext

/-- `CLR` (40_codec_primitives R91). -/
def execClr (s : State) : Result := .next ((s.setCur 0).respond .ok)

/-- `APPEND_I32_BE value` (40_codec_primitives R92). -/
def execAppendI32Be (value : Int) (s : State) : Result := appendOp (beBytes (wrap 32 value)) s

/-- `APPEND_I16_BE value` (40_codec_primitives R93). -/
def execAppendI16Be (value : Int) (s : State) : Result := appendOp (beBytes (wrap 16 value)) s

/-- `APPEND_U8 value` (40_codec_primitives R94). -/
def execAppendU8 (value : Int) (s : State) : Result := appendOp (beBytes (wrap 8 value)) s

/-- `READ_I16_BE bytes, offset` (40_codec_primitives R95). -/
def execReadI16Be (bytes : List Byte) (offset : Nat) (s : State) : Result := readOp (readI16 bytes offset) s

/-- `READ_I8 bytes, offset` (40_codec_primitives R96). -/
def execReadI8 (bytes : List Byte) (offset : Nat) (s : State) : Result := readOp (readI8 bytes offset) s

/-- `READ_U8 bytes, offset` (40_codec_primitives R98). -/
def execReadU8 (bytes : List Byte) (offset : Nat) (s : State) : Result :=
  readOp ((readU8 bytes offset).map Int.ofNat) s

end Sys2Proof.Machine
end

