-- ==== Sys2Proof/Machine/Decoder.lean ====
section
/-! DEFINITION. FC-DEC, the telemetry frame decoder (42_feedback_decoder). -/

namespace Sys2Proof.Machine

/-- The payload the bare decoder takes: exactly `FB_DLC` bytes, by its type (42_feedback_decoder R146). -/
abbrev FbPayload := { rxd : List Byte // rxd.length = fbDlc }

/-- A byte list as a payload of the bare decoder, if it has the length. -/
def fbPayload (data : List Byte) : Option FbPayload := if h : data.length = fbDlc then some ⟨data, h⟩ else none

/-- `UNPACK(RXD)` (42_feedback_decoder R142). No read can be out of range, since every offset plus width is at most 8. -/
def unpack (rxd : FbPayload) : Raw :=
  { pos := sext (memWord rxd.1 0 2)
    vel := sext (memWord rxd.1 2 2)
    cur := sext (memWord rxd.1 4 2)
    temp := sext (memWord rxd.1 6 1)
    err := zext (memWord rxd.1 7 1) }

/-- `SCALE(raw)`: the physical values as exact rationals (42_feedback_decoder R143), in the sample of R144. -/
def scaleSample (p : Params) (raw : Raw) : Sample :=
  { posRaw := raw.pos, velRaw := raw.vel, curRaw := raw.cur, temp := raw.temp, err := raw.err
    position := scaleRat raw.pos p.lsbPosition
    velocity := scaleRat raw.vel p.lsbVelocity
    current := scaleRat raw.cur p.lsbCurrent }

/-- `DECODE_FEEDBACK exp_id, frame` (42_feedback_decoder R141). An accepted frame has 8 bytes of payload on every port
that can carry it (10_state R28); a record that claims otherwise is refused (log 10). -/
def execDecodeFeedback (expId : BitVec aidBits) (frame : Frame) (s : State) : Result :=
  if accept frame expId then
    match fbPayload frame.data with
    | some rxd => .next ((s.emitTlm (scaleSample s.params (unpack rxd))).respond .ok)
    | none => .refused .malformedOperand
  else discardFrame s

end Sys2Proof.Machine
end

