-- ==== Sys2Proof/Machine/Encoder.lean ====
section
/-! DEFINITION. FC-ID, the frame composer, and FC-ENC, the command payload encoder (41_command_encoder). -/

namespace Sys2Proof.Machine

/-- A read of one byte of `BUF`, for the composer and for tests (10_state R23): a byte at or beyond `CUR`, or one that
nothing has written, has no value and the read faults (93 U6). -/
def peek (s : State) (a : Nat) : Except Fault Byte :=
  if a < s.cur.toNat then
    match bufRead s.buf a with
    | some b => .ok b
    | none => .error (.unspecifiedByte a)
  else .error (.unspecifiedByte a)

/-- `COMPOSE(opc, aid)` (41_command_encoder R110): the payload is `BUF[0 .. CUR-1]`. -/
def compose (opc : BitVec opcBits) (aid : BitVec aidBits) (s : State) : Except Fault Frame :=
  match (List.range s.cur.toNat).mapM (peek s) with
  | .ok data => .ok { ide := true, id := identifier opc aid, dlc := s.cur, data := data }
  | .error e => .error e

/-- The fields of a command, appended in order. -/
def appendAll : List (List Byte) → State → Except FaultCause State
  | [], s => .ok s
  | bs :: fields, s =>
    match append bs s with
    | .ok t => appendAll fields t
    | .error f => .error f

/-- The shape of every command operation (41_command_encoder R111): `CUR <- 0`, append the kind's fields, emit the
composed frame. -/
def command (k : Kind) (aid : BitVec aidBits) (fields : List (List Byte)) (s : State) : Result :=
  match appendAll fields (s.setCur 0) with
  | .error f => raiseFault f s
  | .ok t =>
    match compose (opcodeOf t.params k) aid t with
    | .ok f => .next ((t.emitTx f).respond .ok)
    | .error e => .fault e

/-- The field of a real operand: `APPEND_I32_BE(trunc(VAL * SCALE))`, the bytes of `QUANT` (40_codec_primitives R97). -/
def quantField (p : Params) (val : FcNum) (scale : Nat) : List Byte := beBytes (quant p val scale)

/-- `DUTY aid, val` (41_command_encoder R112). -/
def execDuty (aid : BitVec aidBits) (val : FcNum) (s : State) : Result :=
  command .duty aid [quantField s.params val s.params.scaleDuty] s

/-- `CURRENT aid, val` (41_command_encoder R113). -/
def execCurrent (aid : BitVec aidBits) (val : FcNum) (s : State) : Result :=
  command .current aid [quantField s.params val s.params.scaleCurrent] s

/-- `CURRENT_BRAKE aid, val` (41_command_encoder R114). -/
def execCurrentBrake (aid : BitVec aidBits) (val : FcNum) (s : State) : Result :=
  command .currentBrake aid [quantField s.params val s.params.scaleBrake] s

/-- `VELOCITY aid, val` (41_command_encoder R115). -/
def execVelocity (aid : BitVec aidBits) (val : FcNum) (s : State) : Result :=
  command .velocity aid [quantField s.params val s.params.scaleVelocity] s

/-- `POSITION aid, val` (41_command_encoder R116). -/
def execPosition (aid : BitVec aidBits) (val : FcNum) (s : State) : Result :=
  command .position aid [quantField s.params val s.params.scalePosition] s

/-- `SET_ORIGIN aid, mode` (41_command_encoder R117): the check stands before any state change. -/
def execSetOrigin (aid : BitVec aidBits) (mode : BitVec 8) (s : State) : Result :=
  if legalMode mode then command .setOrigin aid [beBytes (wrap 8 (mode.toNat : Int))] s
  else raiseFault (.invalidParameter mode) s

/-- `POSITION_PROFILE aid, val, vlim, alim` (41_command_encoder R118). -/
def execPositionProfile (aid : BitVec aidBits) (val : FcNum) (vlim alim : Int) (s : State) : Result :=
  command .positionProfile aid
    [quantField s.params val s.params.scalePosition, beBytes (wrap 16 vlim), beBytes (wrap 16 alim)] s

end Sys2Proof.Machine
end

