-- ==== Sys2Proof/Machine/Dispatch.lean ====
section
/-! DEFINITION. Every operation of FC to its meaning, one arm a constructor. -/

namespace Sys2Proof.Machine

def exec (i : Instr) (s : State) : Host.Outcome State Fault Refusal :=
  match i with
  | .duty aid val => Sys2Proof.Machine.execDuty aid val s
  | .current aid val => Sys2Proof.Machine.execCurrent aid val s
  | .currentBrake aid val => Sys2Proof.Machine.execCurrentBrake aid val s
  | .velocity aid val => Sys2Proof.Machine.execVelocity aid val s
  | .position aid val => Sys2Proof.Machine.execPosition aid val s
  | .setOrigin aid mode => Sys2Proof.Machine.execSetOrigin aid mode s
  | .positionProfile aid val vlim alim => Sys2Proof.Machine.execPositionProfile aid val vlim alim s
  | .decodeFeedback expId frame => Sys2Proof.Machine.execDecodeFeedback expId frame s
  | .clr => Sys2Proof.Machine.execClr s
  | .appendI32Be value => Sys2Proof.Machine.execAppendI32Be value s
  | .appendI16Be value => Sys2Proof.Machine.execAppendI16Be value s
  | .appendU8 value => Sys2Proof.Machine.execAppendU8 value s
  | .readI16Be bytes offset => Sys2Proof.Machine.execReadI16Be bytes offset s
  | .readI8 bytes offset => Sys2Proof.Machine.execReadI8 bytes offset s
  | .readU8 bytes offset => Sys2Proof.Machine.execReadU8 bytes offset s

end Sys2Proof.Machine
end

