-- ==== Sys2Proof/WellFormed.lean ====
section
/-! DEFINITION. Which operand values a port can carry at all. An instruction that fails a check here is one that no
host can present (log 10); it is not an illegal operand value, which the machine answers with a fault. -/

namespace Sys2Proof

/-- `data` is a list of min(`dlc`, `MAX_DLC`) bytes (10_state R28). -/
def Frame.wellFormed (f : Frame) : Bool := decide (f.data.length = min f.dlc.toNat maxDlc)

/-- The byte list of a read has length 0 to `MAX_DLC` = 8 (10_state R32). -/
def bytesWellFormed (bytes : List Byte) : Bool := decide (bytes.length ≤ maxDlc)

/-- The operand types of the ports (10_state R28, R29, R32; `VAL` restricted by `FLOAT_FMT`, 00_scope R12). -/
def Instr.wellFormed (p : Params) : Instr → Bool
  | .duty _ val => Machine.representable p.floatFmt val
  | .current _ val => Machine.representable p.floatFmt val
  | .currentBrake _ val => Machine.representable p.floatFmt val
  | .velocity _ val => Machine.representable p.floatFmt val
  | .position _ val => Machine.representable p.floatFmt val
  | .setOrigin _ _ => true
  | .positionProfile _ val _ _ => Machine.representable p.floatFmt val
  | .decodeFeedback _ frame => frame.wellFormed
  | .clr => true
  | .appendI32Be _ => true
  | .appendI16Be _ => true
  | .appendU8 _ => true
  | .readI16Be bytes _ => bytesWellFormed bytes
  | .readI8 bytes _ => bytesWellFormed bytes
  | .readU8 bytes _ => bytesWellFormed bytes

end Sys2Proof
end

