-- ==== Sys2Proof/Decode.lean ====
section
/-! DEFINITION. Three readings of an operation: the operand record of a port to an instruction (what a step fetches),
the wire frame of a command to the command (the opcode map, 30_encoding R68), and the bytes of a command image to the
command (log 14). Each is total and rejects by name; after each family stands its encoder. -/

namespace Sys2Proof

open Machine

/-! ### Operand records (ports) -/

/-- Why an operand record starts no operation. -/
inductive Reject where
  /-- Kind code 7 names no command kind (30_encoding R71). -/
  | invalidKind (code : BitVec 3)
  /-- The value is a not-a-number or an infinity (93 U3): refused at the boundary. -/
  | nonFinite
deriving DecidableEq, Repr

/-- The 3-bit kind code of the CMD port (30_encoding R70, R71). -/
def kindOfCode (code : BitVec 3) : Option Kind :=
  match code.toNat with
  | 0 => some .duty
  | 1 => some .current
  | 2 => some .currentBrake
  | 3 => some .velocity
  | 4 => some .position
  | 5 => some .setOrigin
  | 6 => some .positionProfile
  | _ => none

/-- The code of a kind (30_encoding R70). -/
def codeOfKind : Kind → BitVec 3
  | .duty => 0
  | .current => 1
  | .currentBrake => 2
  | .velocity => 3
  | .position => 4
  | .setOrigin => 5
  | .positionProfile => 6

/-- The boundary: a finite value goes to the operation, anything else is refused (40_codec_primitives R102). -/
def withNum (v : HostNum) (mk : FcNum → Instr) : Except Reject Instr :=
  match hostNum v with
  | some q => .ok (mk q)
  | none => .error .nonFinite

/-- The multiplexer on `KIND` (41_command_encoder R121). A field the kind does not use is ignored (10_state R29). -/
def decodeCmd (kind : Kind) (aid : BitVec aidBits) (val : HostNum) (mode : BitVec 8) (vlim alim : Int) :
    Except Reject Instr :=
  match kind with
  | .duty => withNum val (.duty aid)
  | .current => withNum val (.current aid)
  | .currentBrake => withNum val (.currentBrake aid)
  | .velocity => withNum val (.velocity aid)
  | .position => withNum val (.position aid)
  | .setOrigin => .ok (.setOrigin aid mode)
  | .positionProfile => withNum val fun q => .positionProfile aid q vlim alim

/-- The selection by name on the PRIM port (10_state R32, 30_encoding R68). -/
def decodePrim (op : PrimOp) (value : Int) (bytes : List Byte) (offset : Nat) : Instr :=
  match op with
  | .clr => .clr
  | .appendI32Be => .appendI32Be value
  | .appendI16Be => .appendI16Be value
  | .appendU8 => .appendU8 value
  | .readI16Be => .readI16Be bytes offset
  | .readI8 => .readI8 bytes offset
  | .readU8 => .readU8 bytes offset

/-- The operation an operand record starts. -/
def decodeRequest : Request → Except Reject Instr
  | .cmd code aid val mode vlim alim =>
    match kindOfCode code with
    | some k => decodeCmd k aid val mode vlim alim
    | none => .error (.invalidKind code)
  | .rx expId frame => .ok (.decodeFeedback expId frame)
  | .prim op value bytes offset => .ok (decodePrim op value bytes offset)

/-- The CMD record of a kind with one real operand; the fields it does not use are zero. -/
def cmdRecord (k : Kind) (aid : BitVec aidBits) (val : FcNum) : Request := .cmd (codeOfKind k) aid (.exact val) 0 0 0

/-- The operand record that presents an operation (10_state R28, R29, R32). -/
def encodeRequest : Instr → Request
  | .duty aid val => cmdRecord .duty aid val
  | .current aid val => cmdRecord .current aid val
  | .currentBrake aid val => cmdRecord .currentBrake aid val
  | .velocity aid val => cmdRecord .velocity aid val
  | .position aid val => cmdRecord .position aid val
  | .setOrigin aid mode => .cmd (codeOfKind .setOrigin) aid (.exact 0) mode 0 0
  | .positionProfile aid val vlim alim => .cmd (codeOfKind .positionProfile) aid (.exact val) 0 vlim alim
  | .decodeFeedback expId frame => .rx expId frame
  | .clr => .prim .clr 0 [] 0
  | .appendI32Be value => .prim .appendI32Be value [] 0
  | .appendI16Be value => .prim .appendI16Be value [] 0
  | .appendU8 value => .prim .appendU8 value [] 0
  | .readI16Be bytes offset => .prim .readI16Be 0 bytes offset
  | .readI8 bytes offset => .prim .readI8 0 bytes offset
  | .readU8 bytes offset => .prim .readU8 0 bytes offset

/-! ### Command frames (the wire form, 30_encoding R61 to R69) -/

/-- Why a frame or a byte list is no command frame. -/
inductive WireError where
  /-- `ide` = 0 (30_encoding R60). -/
  | notExtended
  /-- A bit of `id[28:16]`, or of the image's word above the identifier, is set (30_encoding R61). -/
  | upperBitsSet
  /-- `id[15:8]` is none of the seven opcodes (30_encoding R72). -/
  | unknownOpcode (opc : BitVec opcBits)
  /-- The length is not the kind's (30_encoding R69). -/
  | wrongLength
  /-- SetOrigin's `MODE` is 3 to 255 (30_encoding R73). -/
  | badMode (mode : BitVec 8)
  /-- The byte list ends before the image does. -/
  | truncated
deriving DecidableEq, Repr

/-- The seven kinds in the order of the source's list (30_encoding R70). -/
def allKinds : List Kind := [.duty, .current, .currentBrake, .velocity, .position, .setOrigin, .positionProfile]

/-- The kind whose opcode it is; where two kinds share a number the earlier one of the list, DESIGN CHOICE (log 15). -/
def kindOfOpcode (p : Params) (opc : BitVec opcBits) : Option Kind := allKinds.find? fun k => opcodeOf p k == opc

/-- The payload length of a kind (30_encoding R69). -/
def payloadLength : Kind → Nat
  | .duty | .current | .currentBrake | .velocity | .position => 4
  | .setOrigin => 1
  | .positionProfile => 8

/-- The number a P4 field stands for: `Q / SCALE`, DESIGN CHOICE (log 15). -/
def numOfQ (q : List Byte) (scale : Nat) : FcNum := mkRat (sext (BitVec.ofNat 32 (beUint q))) scale

/-- The payload of a kind to its operands: formats P4, P1 and P8 (30_encoding R64 to R66). -/
def decodePayload (p : Params) (k : Kind) (aid : BitVec aidBits) (data : List Byte) : Except WireError Instr :=
  if data.length ≠ payloadLength k then .error .wrongLength
  else
    match k with
    | .duty => .ok (.duty aid (numOfQ data p.scaleDuty))
    | .current => .ok (.current aid (numOfQ data p.scaleCurrent))
    | .currentBrake => .ok (.currentBrake aid (numOfQ data p.scaleBrake))
    | .velocity => .ok (.velocity aid (numOfQ data p.scaleVelocity))
    | .position => .ok (.position aid (numOfQ data p.scalePosition))
    | .setOrigin =>
      if beUint data ≤ 2 then .ok (.setOrigin aid (BitVec.ofNat 8 (beUint data)))
      else .error (.badMode (BitVec.ofNat 8 (beUint data)))
    | .positionProfile =>
      .ok (.positionProfile aid (numOfQ (data.take 4) p.scalePosition)
        (sext (BitVec.ofNat 16 (beUint ((data.drop 4).take 2)))) (sext (BitVec.ofNat 16 (beUint (data.drop 6)))))

/-- The command a frame carries, by the rows of the opcode map (30_encoding R68) at the parameters' opcodes. -/
def decodeFrame (p : Params) (f : Frame) : Except WireError Instr :=
  if f.ide = false then .error .notExtended
  else if f.id.extractLsb' (opcShift + opcBits) (idBits - opcShift - opcBits) ≠ 0 then .error .upperBitsSet
  else
    match kindOfOpcode p (f.id.extractLsb' opcShift opcBits) with
    | none => .error (.unknownOpcode (f.id.extractLsb' opcShift opcBits))
    | some k =>
      if f.dlc.toNat ≠ payloadLength k then .error .wrongLength
      else decodePayload p k (f.id.extractLsb' 0 aidBits) f.data

/-- The frame of a kind with a payload (30_encoding R60, R61, R69). -/
def commandFrame (p : Params) (k : Kind) (aid : BitVec aidBits) (data : List Byte) : Frame :=
  { ide := true, id := identifier (opcodeOf p k) aid, dlc := BitVec.ofNat 4 (payloadLength k), data := data }

/-- The encoder: the frame of a command, from the layouts alone (30_encoding R61, R64 to R66, R78); `none` for an
operation that has no wire form and for an illegal `MODE`. It is no step of FC and reads no state. -/
def encodeFrame (p : Params) : Instr → Option Frame
  | .duty aid val => some (commandFrame p .duty aid (beBytes (quant p val p.scaleDuty)))
  | .current aid val => some (commandFrame p .current aid (beBytes (quant p val p.scaleCurrent)))
  | .currentBrake aid val => some (commandFrame p .currentBrake aid (beBytes (quant p val p.scaleBrake)))
  | .velocity aid val => some (commandFrame p .velocity aid (beBytes (quant p val p.scaleVelocity)))
  | .position aid val => some (commandFrame p .position aid (beBytes (quant p val p.scalePosition)))
  | .setOrigin aid mode => if mode.toNat ≤ 2 then some (commandFrame p .setOrigin aid [mode]) else none
  | .positionProfile aid val vlim alim =>
    some (commandFrame p .positionProfile aid
      (beBytes (quant p val p.scalePosition) ++ beBytes (wrap 16 vlim) ++ beBytes (wrap 16 alim)))
  | .decodeFeedback _ _ => none
  | .clr => none
  | .appendI32Be _ => none
  | .appendI16Be _ => none
  | .appendU8 _ => none
  | .readI16Be _ _ => none
  | .readI8 _ _ => none
  | .readU8 _ _ => none

/-! ### Command images in bytes (log 14) -/

/-- The identifier word of an image: four bytes, least significant first, so that its bits are numbered as the opcode
table numbers them; DESIGN CHOICE (log 14). -/
def idWord (id : BitVec idBits) : List Byte :=
  [id.extractLsb' 0 8, id.extractLsb' 8 8, id.extractLsb' 16 8, (id.extractLsb' 24 (idBits - 24)).setWidth 8]

/-- The image of a command: the identifier word, then the payload. The flag `ide` = 1 and the length are implied, since
every command frame is extended and its length is the kind's (30_encoding R69, 41_command_encoder R120). -/
def encodeBytes (p : Params) (i : Instr) : Option (List Byte) :=
  (encodeFrame p i).map fun f => idWord f.id ++ f.data

/-- The command at the head of a byte list, and the rest of the list. -/
def decodeBytes (p : Params) (bs : List Byte) : Except WireError (Instr × List Byte) :=
  match bs with
  | b0 :: b1 :: b2 :: b3 :: rest =>
    if b2 ≠ 0 ∨ b3 ≠ 0 then .error .upperBitsSet
    else
      match kindOfOpcode p b1 with
      | none => .error (.unknownOpcode b1)
      | some k =>
        if rest.length < payloadLength k then .error .truncated
        else
          match decodePayload p k b0 (rest.take (payloadLength k)) with
          | .ok i => .ok (i, rest.drop (payloadLength k))
          | .error e => .error e
  | _ => .error .truncated

/-! ### The opcode table's words -/

/-- The longest command image: the identifier word and the longest payload. -/
def imageBytes : Nat := 4 + maxDlc

/-- The bytes of a table word: byte k holds bits 8k+7 to 8k; every bit at `nbits` and above is zero. -/
def tableBytes (nbits w : Nat) : List Byte :=
  (List.range imageBytes).map fun k => BitVec.ofNat 8 (w % 2 ^ nbits / 256 ^ k)

/-- The command of a table word at given parameters. A row that gives fewer bits than an identifier has gives no
identifier, hence no operation (30_encoding R68: the primitives have no wire form). -/
def decodeTableWordAt (p : Params) (nbits w : Nat) : Option Instr :=
  if nbits < idBits then none
  else
    match decodeBytes p (tableBytes nbits w) with
    | .ok (i, _) => some i
    | .error _ => none

/-- The command of a table word, at the default opcodes. -/
def decodeTableWord (nbits w : Nat) : Option Instr := decodeTableWordAt defaultParams nbits w

end Sys2Proof
end

