-- ==== Sys2Proof/Machine/Ports.lean ====
section
/-! DEFINITION. What FC takes next: FC has no program counter and fetches nothing (10_state R26); the next operation is
whatever the host presents next. -/

namespace Sys2Proof.Machine

/-- What stands at the input of FC. -/
inductive Fetched where
  /-- The host presents nothing. -/
  | idle
  /-- It is dealt with at the port: a reset event, or a record whose kind code names no command. -/
  | done (s : State)
  /-- The boundary refuses it. -/
  | refuse (r : Refusal)
  /-- An operation to run, in the state that has taken its record. -/
  | run (i : Instr) (s : State)
deriving DecidableEq, Repr

/-- One operand record: an operation, the fault InvalidKind (30_encoding R71, before any other check: 60_exceptions
R170), or a refusal at the boundary (93 U3; log 10). -/
def fetchRequest (r : Request) (s : State) : Fetched :=
  match decodeRequest r with
  | .ok i => if i.wellFormed s.params then .run i s else .refuse .malformedOperand
  | .error (.invalidKind code) => .done (s.respond (.fault (.invalidKind code)))
  | .error .nonFinite => .refuse .nonFinite

/-- The next input. With none, FC does nothing (10_state R30: "FC never emits a frame on its own"; log 2). -/
def fetch (s : State) : Fetched :=
  match s.inputs with
  | [] => .idle
  | .reset :: rest => .done (resetEvent (s.setInputs rest))
  | .op r :: rest => fetchRequest r (s.setInputs rest)

end Sys2Proof.Machine
end

