-- ==== Sys2Proof/Machine/Step.lean ====
section
/-! DEFINITION. One step: one transaction on a port, or the reset event, or nothing (log 2). -/

namespace Sys2Proof.Machine

/-- One step of FC: operations take effect one at a time, each completely, in the order the host issues them
(20_memory R46, R49). -/
def step (s : State) : Host.Outcome State Fault Refusal :=
  match fetch s with
  | .idle => .next s
  | .done t => .next t
  | .refuse r => .refused r
  | .run i t => exec i t

/-- `s` with the command of a table word presented next (log 1): its operand record stands first among the inputs. A
word that is no command is no operation, and nothing is presented. -/
def State.withFetchWord (s : State) (nbits w : Nat) : State :=
  match decodeTableWordAt s.params nbits w with
  | some i => s.setInputs (.op (encodeRequest i) :: s.inputs)
  | none => s

end Sys2Proof.Machine
end

