-- ==== Sys2Proof/Machine/ControlCycle.lean ====
section
/-! DEFINITION. The host's control cycle (60_exceptions R175 to R183): outside FC as hardware (00_scope R7), modelled as
a layer that says which inputs the host presents to FC at each tick (log 18). The machine's step never reads it. -/

namespace Sys2Proof.Machine

/-- The active command of a running cycle with its parameters. SetOrigin "is never the active command of a running
cycle" (60_exceptions R181). -/
inductive Active where
  | duty (val : FcNum)
  | current (val : FcNum)
  | currentBrake (val : FcNum)
  | velocity (val : FcNum)
  | position (val : FcNum)
  | positionProfile (val : FcNum) (vlim alim : Int)
deriving DecidableEq, Repr

/-- The operation the host issues for an active command. -/
def activeInstr (aid : BitVec aidBits) : Active → Instr
  | .duty val => .duty aid val
  | .current val => .current aid val
  | .currentBrake val => .currentBrake aid val
  | .velocity val => .velocity aid val
  | .position val => .position aid val
  | .positionProfile val vlim alim => .positionProfile aid val vlim alim

/-- The kind of an active command. -/
def activeKind : Active → Kind
  | .duty _ => .duty
  | .current _ => .current
  | .currentBrake _ => .currentBrake
  | .velocity _ => .velocity
  | .position _ => .position
  | .positionProfile _ _ _ => .positionProfile

/-- The pseudo-operation `NEUTRAL kind, aid` (30_encoding R77); not defined for the Position family and SetOrigin. -/
def neutral (aid : BitVec aidBits) : Kind → Option Instr
  | .duty => some (.duty aid 0)
  | .current => some (.current aid 0)
  | .currentBrake => some (.currentBrake aid 0)
  | .velocity => some (.velocity aid 0)
  | .position => none
  | .setOrigin => none
  | .positionProfile => none

/-- The host's policy for the stop frame of a Position-family cycle (93 U1): repeat the command once, or send none. -/
inductive StopPolicy where
  | repeatLast | skip
deriving DecidableEq, Repr

/-- The policy this spec's host follows (60_exceptions R181, 92 D17). -/
def defaultPolicy : StopPolicy := .repeatLast

/-- `ControlCycleState`, with its three control states (60_exceptions R175). -/
inductive Cycle where
  | idle
  | running (aid : BitVec aidBits) (a : Active)
  | stopping (aid : BitVec aidBits) (a : Active)
deriving DecidableEq, Repr

/-- What a tick finds outside: the frame the transport's non-blocking receive returned, if any (which one, when several
arrived, is the transport's: 93 U2); whether the cancellation signal is asserted; whether the transport's write of
the tick's frame failed. -/
structure TickEnv where
  inbound : Option Frame
  cancel : Bool
  transmitError : Bool
deriving DecidableEq, Repr

/-- What a tick does: the next control state, what the host presents to FC in order, and whether it reports a
`TransmitError` (60_exceptions R167, R182: reported, not retried, the loop continues). -/
structure TickResult where
  next : Cycle
  inputs : List Input
  reported : Bool
deriving DecidableEq, Repr

/-- Presenting one operation. -/
def present (i : Instr) : Input := .op (encodeRequest i)

/-- `Idle` to `Running` (60_exceptions R176); a cycle that has not reached `Idle` lets no other start (R183). -/
def startCycle (aid : BitVec aidBits) (a : Active) : Cycle → Option Cycle
  | .idle => some (.running aid a)
  | .running _ _ => none
  | .stopping _ _ => none

/-- Whether a failed write of the transport is reported, given what the host presented for transmission: where it presented
nothing there is no write that could fail, so nothing is reported. 60_exceptions R167 and R182 speak only of a write that
was made; DESIGN CHOICE (logs 23 and 24). -/
def transmitReport (sends : List Input) (transmitError : Bool) : Bool := !sends.isEmpty && transmitError

/-- What a transmit outside the tick loop does: what the host presents to FC, and whether it reports a
`TransmitError`. -/
structure SendResult where
  inputs : List Input
  reported : Bool
deriving DecidableEq, Repr

/-- A single SetOrigin transmit (60_exceptions R181); with an illegal mode the operation is not started (R176), so there is
nothing whose transmit could fail. `transmitError` says whether the transport's write of the frame failed. R182 speaks of
the loop only: that this failure too is reported once and not retried is a DESIGN CHOICE (log 23). -/
def sendOrigin (aid : BitVec aidBits) (mode : BitVec 8) (transmitError : Bool) : SendResult :=
  let sends := if legalMode mode then [present (.setOrigin aid mode)] else []
  { inputs := sends, reported := transmitReport sends transmitError }

/-- The one operation of `Stopping`: `NEUTRAL kind, aid` (60_exceptions R180), or for the Position family what the policy
says (R181). -/
def stopInputs (policy : StopPolicy) (aid : BitVec aidBits) (a : Active) : List Input :=
  match neutral aid (activeKind a) with
  | some i => [present i]
  | none =>
    match policy with
    | .repeatLast => [present (activeInstr aid a)]
    | .skip => []

/-- One tick (60_exceptions R177 to R181). While running: (a) the active command, (b) at most one inbound frame, (c) the
cancellation signal. A running tick always transmits; a stopping tick that transmits nothing (policy `skip`, Position
family) reports nothing, DESIGN CHOICE (log 24). -/
def tick (policy : StopPolicy) (env : TickEnv) : Cycle → TickResult
  | .idle => { next := .idle, inputs := [], reported := false }
  | .running aid a =>
    { next := if env.cancel then .stopping aid a else .running aid a
      inputs := present (activeInstr aid a) :: (env.inbound.map fun f => present (.decodeFeedback aid f)).toList
      reported := env.transmitError }
  | .stopping aid a =>
    { next := .idle, inputs := stopInputs policy aid a,
      reported := transmitReport (stopInputs policy aid a) env.transmitError }

end Sys2Proof.Machine
end

