-- ==== Sys2Proof/Safety.lean ====
section
/-! DEFINITION. The terms the claims use: the machine's invariant, what a successful command leaves, what a finished
operation leaves alone, and the operands the wire form carries exactly. -/

namespace Sys2Proof.Machine

/-- Every byte below `CUR` has been written: it is the payload assembled so far (10_state R21). -/
def payloadWritten (s : State) : Prop := ∀ a, a < s.cur.toNat → ∃ b, bufRead s.buf a = some b

/-- The shape of every frame FC emits (41_command_encoder R120). -/
def frameShape (p : Params) (f : Frame) : Prop :=
  f.ide = true ∧ f.id.extractLsb' 16 13 = 0 ∧ (∃ k, f.id.extractLsb' 8 8 = opcodeOf p k ∧ f.dlc.toNat = payloadLength k) ∧
    f.data.length = f.dlc.toNat

/-- The ranges of a sample's raw fields and the physical values they give (42_feedback_decoder R143, R144). -/
def sampleShape (p : Params) (x : Sample) : Prop :=
  (-32768 ≤ x.posRaw ∧ x.posRaw ≤ 32767) ∧ (-32768 ≤ x.velRaw ∧ x.velRaw ≤ 32767) ∧
    (-32768 ≤ x.curRaw ∧ x.curRaw ≤ 32767) ∧ (-128 ≤ x.temp ∧ x.temp ≤ 127) ∧ x.err ≤ 255 ∧
    x.position = x.posRaw * p.lsbPosition ∧ x.velocity = x.velRaw * p.lsbVelocity ∧
    x.current = x.curRaw * p.lsbCurrent

/-- The invariant of the machine: `BUF` in its canonical form, `CUR` at most 8 (10_state R22), every payload byte
written, and every frame and sample on the ports of the shape the rules give. -/
def StateInv (s : State) : Prop :=
  memoryWf s.buf = true ∧ s.cur.toNat ≤ maxDlc ∧ payloadWritten s ∧
    (∀ f ∈ s.tx, frameShape s.params f) ∧ ∀ x ∈ s.tlm, sampleShape s.params x

/-- What no operation of FC writes: the parameters, and what the host presents afterwards. -/
def sameRest (s t : State) : Prop := t.params = s.params ∧ t.inputs = s.inputs

/-- `BUF` and `CUR` are unchanged, and so is every byte of `BUF` a read would see. -/
def sameBuffer (s t : State) : Prop := t.cur = s.cur ∧ ∀ a, bufRead t.buf a = bufRead s.buf a

/-- Nothing is emitted. -/
def sameOutputs (s t : State) : Prop := t.tx = s.tx ∧ t.tlm = s.tlm

/-- The bytes `bs` stand in `BUF` from `addr` on, and every other byte of `BUF` is as before. -/
def written (s t : State) (addr : Nat) (bs : List Byte) : Prop :=
  (∀ k, k < bs.length → bufRead t.buf (addr + k) = bs[k]?) ∧
    ∀ a, (a < addr ∨ addr + bs.length ≤ a) → bufRead t.buf a = bufRead s.buf a

/-- `t` is `s` after a successful command with payload `data` (41_command_encoder R111): one frame emitted, the payload
in `BUF`, `CUR` its length, the response ok, and everything else as before. -/
def sent (s t : State) (opc : BitVec opcBits) (aid : BitVec aidBits) (data : List Byte) : Prop :=
  t.tx = s.tx ++ [{ ide := true, id := (opc.setWidth idBits <<< 8) ||| aid.setWidth idBits,
                    dlc := BitVec.ofNat 4 data.length, data := data }] ∧
    t.cur = BitVec.ofNat 4 data.length ∧ written s t 0 data ∧ t.tlm = s.tlm ∧
    t.responses = s.responses ++ [.ok] ∧ sameRest s t

/-- `t` is `s` after a successful append of `bs` (40_codec_primitives R92 to R94). -/
def appended (s t : State) (bs : List Byte) : Prop :=
  written s t s.cur.toNat bs ∧ t.cur.toNat = s.cur.toNat + bs.length ∧
    sameOutputs s t ∧ t.responses = s.responses ++ [.ok] ∧ sameRest s t

/-- `t` is `s` after an operation that only answered `r`: no state written, nothing emitted (60_exceptions R160). -/
def answered (s t : State) (r : Response) : Prop :=
  sameBuffer s t ∧ sameOutputs s t ∧ t.responses = s.responses ++ [r] ∧ sameRest s t

/-- The four big-endian bytes of the 32-bit pattern of an integer (20_memory R41, 30_encoding R64). -/
def i32Bytes (n : Int) : List Byte :=
  let u := BitVec.ofInt 32 n
  [u.extractLsb' 24 8, u.extractLsb' 16 8, u.extractLsb' 8 8, u.extractLsb' 0 8]

/-- The two big-endian bytes of the 16-bit pattern of an integer (20_memory R41). -/
def i16Bytes (n : Int) : List Byte :=
  let u := BitVec.ofInt 16 n
  [u.extractLsb' 8 8, u.extractLsb' 0 8]

/-- The signed integer of two big-endian bytes (40_codec_primitives R95). -/
def i16Of (hi lo : Byte) : Int :=
  if hi.toNat * 256 + lo.toNat < 32768 then ((hi.toNat * 256 + lo.toNat : Nat) : Int)
  else ((hi.toNat * 256 + lo.toNat : Nat) : Int) - 65536

/-- The signed integer of one byte (40_codec_primitives R96). -/
def i8Of (b : Byte) : Int := if b.toNat < 128 then (b.toNat : Int) else (b.toNat : Int) - 256

/-- The sample of eight payload bytes (42_feedback_decoder R142, R143; the byte offsets of 30_encoding R67). -/
def sampleOf (p : Params) (b0 b1 b2 b3 b4 b5 b6 b7 : Byte) : Sample :=
  { posRaw := i16Of b0 b1, velRaw := i16Of b2 b3, curRaw := i16Of b4 b5, temp := i8Of b6, err := b7.toNat
    position := i16Of b0 b1 * p.lsbPosition
    velocity := i16Of b2 b3 * p.lsbVelocity
    current := i16Of b4 b5 * p.lsbCurrent }

/-- The real operands an encoding carries without loss: an integer multiple of 1/`SCALE` in the 32-bit range. -/
def onGrid (S : Nat) (v : FcNum) : Prop :=
  ∃ n : Int, -2147483648 ≤ n ∧ n ≤ 2147483647 ∧ v = mkRat n S

/-- The limits an encoding carries without loss: the signed 16-bit integers. -/
def int16 (n : Int) : Prop := -32768 ≤ n ∧ n ≤ 32767

/-- The commands whose every operand stands at a value that the wire form admits. -/
def wireExact (p : Params) : Instr → Prop
  | .duty _ val => onGrid p.scaleDuty val
  | .current _ val => onGrid p.scaleCurrent val
  | .currentBrake _ val => onGrid p.scaleBrake val
  | .velocity _ val => onGrid p.scaleVelocity val
  | .position _ val => onGrid p.scalePosition val
  | .setOrigin _ mode => mode.toNat ≤ 2
  | .positionProfile _ val vlim alim => onGrid p.scalePosition val ∧ int16 vlim ∧ int16 alim
  | .decodeFeedback _ _ => False
  | .clr => False
  | .appendI32Be _ => False
  | .appendI16Be _ => False
  | .appendU8 _ => False
  | .readI16Be _ _ => False
  | .readI8 _ _ => False
  | .readU8 _ _ => False

/-- The kind and the actuator id of a command operation; none for the other operations. -/
def commandOf : Instr → Option (Kind × BitVec aidBits)
  | .duty aid _ => some (.duty, aid)
  | .current aid _ => some (.current, aid)
  | .currentBrake aid _ => some (.currentBrake, aid)
  | .velocity aid _ => some (.velocity, aid)
  | .position aid _ => some (.position, aid)
  | .setOrigin aid _ => some (.setOrigin, aid)
  | .positionProfile aid _ _ _ => some (.positionProfile, aid)
  | .decodeFeedback _ _ | .clr | .appendI32Be _ | .appendI16Be _ | .appendU8 _ => none
  | .readI16Be _ _ | .readI8 _ _ | .readU8 _ _ => none

/-- The operations of the transmit path: the commands, `CLR` and the appends (10_state R20). -/
def writesBuffer : Instr → Bool
  | .duty _ _ | .current _ _ | .currentBrake _ _ | .velocity _ _ | .position _ _ | .setOrigin _ _ => true
  | .positionProfile _ _ _ _ | .clr | .appendI32Be _ | .appendI16Be _ | .appendU8 _ => true
  | .decodeFeedback _ _ | .readI16Be _ _ | .readI8 _ _ | .readU8 _ _ => false

/-- The opcodes are pairwise different; the spec does not say so (91 N2). -/
def opcodesDistinct (p : Params) : Prop := ∀ k j, opcodeOf p k = opcodeOf p j → k = j

/-- What a single-value command does (41_command_encoder R112 to R116): from every state it completes, sending the four
bytes of `QUANT(VAL, SCALE)`, which at the default product mode are those of the truncated exact product; `S` is the
scale's default. -/
def valueCommand (mk : BitVec aidBits → FcNum → Instr) (opc : Params → BitVec opcBits) (scale : Params → Nat)
    (S : Nat) : Prop :=
  scale defaultParams = S ∧
    ∀ (s : State) (aid : BitVec aidBits) (val : FcNum), ∃ t, exec (mk aid val) s = .next t ∧
      sent s t (opc s.params) aid (beBytes (quant s.params val (scale s.params))) ∧
      (s.params.mulMode = .exact →
        beBytes (quant s.params val (scale s.params)) = i32Bytes (trunc (val * (scale s.params : Rat))))

/-- The ranges of the raw integers of a payload (42_feedback_decoder R144). -/
def rawInRange (r : Raw) : Prop :=
  (-32768 ≤ r.pos ∧ r.pos ≤ 32767) ∧ (-32768 ≤ r.vel ∧ r.vel ≤ 32767) ∧ (-32768 ≤ r.cur ∧ r.cur ≤ 32767) ∧
    (-128 ≤ r.temp ∧ r.temp ≤ 127) ∧ r.err ≤ 255

/-- `k` steps of the machine. -/
def runSteps (k : Nat) (s : State) : Host.Outcome State Fault Refusal :=
  match k with
  | 0 => .next s
  | k + 1 =>
    match step s with
    | .next t => runSteps k t
    | .fault r => .fault r
    | .refused r => .refused r

end Sys2Proof.Machine
end

