-- ==== Sys2Proof/Certificates/Slice0/Obligations.lean ====
section
/-! DEFINITION. The statements for the provers. What a response, a port trace and the parameters in State are, is the
model's convention (logs 3, 5, 11); a statement that rests on a decision of the spec or of the model says so. -/

open Sys2Proof Sys2Proof.Machine

/-! ### Conversions and the quantiser -/

/-- 00_scope R15: the six conversion functions are the ones the rule defines. -/
def Obligations.IntegerConversionsAreTheSpecs : Prop :=
  (∀ (N : Nat) (n : Int), ((wrap N n).toNat : Int) = n % 2 ^ N) ∧
  (∀ (N : Nat) (u : BitVec N), sext u = if u.toNat < 2 ^ (N - 1) then (u.toNat : Int) else (u.toNat : Int) - 2 ^ N) ∧
  (∀ (N : Nat) (u : BitVec (N + 1)), -(2 ^ N : Int) ≤ sext u ∧ sext u ≤ 2 ^ N - 1) ∧
  (∀ (N : Nat) (u : BitVec N), zext u = u.toNat) ∧
  (∀ q : Rat, trunc q = if 0 ≤ q then ⌊q⌋ else -⌊-q⌋) ∧
  (∀ (m : Nat) (u : BitVec (8 * m)),
    (beBytes u).length = m ∧ ∀ k, k < m → (beBytes u)[k]? = some (u.extractLsb' (8 * (m - 1 - k)) 8)) ∧
  (beUint [] = 0 ∧ ∀ (b : Byte) (bs : List Byte), beUint (b :: bs) = b.toNat * 256 ^ bs.length + beUint bs) ∧
  ∀ (m : Nat) (u : BitVec (8 * m)), beUint (beBytes u) = u.toNat

/-- 40_codec_primitives R97 at the default product mode (decision D3): the product is exact, truncated toward zero and
wrapped to 32 bits. -/
def Obligations.QuantTruncatesExactProduct : Prop :=
  ∀ (p : Params) (v : FcNum) (S : Nat), p.mulMode = .exact →
    quant p v S = BitVec.ofInt 32 (if 0 ≤ v * (S : Rat) then ⌊v * (S : Rat)⌋ else -⌊-(v * (S : Rat))⌋)

/-- 40_codec_primitives R100, derived there: within the 32-bit range the packed and read-back integer is the truncated
product, and the value it stands for is within one step of the operand and no larger in magnitude. -/
def Obligations.QuantisationErrorBelowOneStep : Prop :=
  ∀ (p : Params) (f : FcNum) (S : Nat), p.mulMode = .exact → 0 < S →
    -2147483648 ≤ trunc (f * (S : Rat)) → trunc (f * (S : Rat)) ≤ 2147483647 →
    let q : Int := sext (BitVec.ofNat 32 (beUint (beBytes (quant p f S))))
    q = trunc (f * (S : Rat)) ∧ |(q : Rat) / (S : Rat)| ≤ |f| ∧ |f - (q : Rat) / (S : Rat)| < 1 / (S : Rat)

/-- The model's rounding (00_scope R12 MUL_MODE, log 7): a product that is an integer of magnitude at most 2^24 is not
moved by rounding, in any format, so the quantised value is the exact one. -/
def Obligations.RoundedProductKeepsSmallIntegers : Prop :=
  ∀ (p : Params) (v : FcNum) (S : Nat) (n : Int), p.mulMode = .rounded → (S : Rat) * v = (n : Rat) →
    -16777216 ≤ n → n ≤ 16777216 → quant p v S = BitVec.ofInt 32 n

/-! ### FC-PACK -/

/-- 40_codec_primitives R91 (decision D14): `CLR` sets the cursor to 0, whatever it was, and leaves `BUF` alone. -/
def Obligations.ClrResetsCursorOnly : Prop :=
  ∀ s : State, ∃ t, exec .clr s = .next t ∧ t.cur = 0 ∧ (∀ a, bufRead t.buf a = bufRead s.buf a) ∧
    sameOutputs s t ∧ t.responses = s.responses ++ [.ok] ∧ sameRest s t

/-- 40_codec_primitives R92: with room for four bytes the wrapped value is written big-endian at `CUR`, which advances by
4; otherwise the response is BufferOverflow and nothing is written. -/
def Obligations.AppendI32WritesBigEndian : Prop :=
  ∀ (s : State) (v : Int),
    (s.cur.toNat ≤ 4 → ∃ t, exec (.appendI32Be v) s = .next t ∧ appended s t (i32Bytes v)) ∧
    (4 < s.cur.toNat → ∃ t, exec (.appendI32Be v) s = .next t ∧ answered s t (.fault (.bufferOverflow s.cur)))

/-- 40_codec_primitives R93: the same for two bytes. -/
def Obligations.AppendI16WritesBigEndian : Prop :=
  ∀ (s : State) (v : Int),
    (s.cur.toNat ≤ 6 → ∃ t, exec (.appendI16Be v) s = .next t ∧ appended s t (i16Bytes v)) ∧
    (6 < s.cur.toNat → ∃ t, exec (.appendI16Be v) s = .next t ∧ answered s t (.fault (.bufferOverflow s.cur)))

/-- 40_codec_primitives R94, derived there: the same for one byte. -/
def Obligations.AppendU8WritesOneByte : Prop :=
  ∀ (s : State) (v : Int),
    (s.cur.toNat ≤ 7 → ∃ t, exec (.appendU8 v) s = .next t ∧ appended s t [BitVec.ofInt 8 v]) ∧
    (7 < s.cur.toNat → ∃ t, exec (.appendU8 v) s = .next t ∧ answered s t (.fault (.bufferOverflow s.cur)))

/-- 40_codec_primitives R95: with two bytes at the offset the response is their signed big-endian integer, else
ReadOutOfRange; nothing is written. -/
def Obligations.ReadI16AnswersSignedInteger : Prop :=
  ∀ (s : State) (bytes : List Byte) (offset : Nat),
    (∀ hi lo, bytes[offset]? = some hi → bytes[offset + 1]? = some lo →
      (∃ t, exec (.readI16Be bytes offset) s = .next t ∧ answered s t (.value (i16Of hi lo))) ∧
      -32768 ≤ i16Of hi lo ∧ i16Of hi lo ≤ 32767) ∧
    (bytes.length < offset + 2 →
      ∃ t, exec (.readI16Be bytes offset) s = .next t ∧ answered s t (.fault (.readOutOfRange offset)))

/-- 40_codec_primitives R96, derived there: one byte, signed. -/
def Obligations.ReadI8AnswersSignedByte : Prop :=
  ∀ (s : State) (bytes : List Byte) (offset : Nat),
    (∀ b, bytes[offset]? = some b →
      (∃ t, exec (.readI8 bytes offset) s = .next t ∧ answered s t (.value (i8Of b))) ∧
      -128 ≤ i8Of b ∧ i8Of b ≤ 127) ∧
    (bytes.length < offset + 1 →
      ∃ t, exec (.readI8 bytes offset) s = .next t ∧ answered s t (.fault (.readOutOfRange offset)))

/-- 40_codec_primitives R98, derived there: one byte, unsigned. -/
def Obligations.ReadU8AnswersUnsignedByte : Prop :=
  ∀ (s : State) (bytes : List Byte) (offset : Nat),
    (∀ b, bytes[offset]? = some b →
      ∃ t, exec (.readU8 bytes offset) s = .next t ∧ answered s t (.value (b.toNat : Int))) ∧
    (bytes.length < offset + 1 →
      ∃ t, exec (.readU8 bytes offset) s = .next t ∧ answered s t (.fault (.readOutOfRange offset)))

/-- 40_codec_primitives R99, derived there: the two bytes an `APPEND_I16_BE` wrote read back as the integer, for every
signed 16-bit integer, and as its wrapped value for every other. -/
def Obligations.AppendThenReadI16IsIdentity : Prop :=
  ∀ (s : State) (n : Int), s.cur.toNat ≤ 6 →
    ∃ t b0 b1 u, exec (.appendI16Be n) s = .next t ∧ bufRead t.buf s.cur.toNat = some b0 ∧
      bufRead t.buf (s.cur.toNat + 1) = some b1 ∧ exec (.readI16Be [b0, b1] 0) t = .next u ∧
      u.responses = t.responses ++ [.value (sext (BitVec.ofInt 16 n))] ∧
      (-32768 ≤ n → n ≤ 32767 → sext (BitVec.ofInt 16 n) = n)

/-! ### FC-ID and FC-ENC -/

/-- 41_command_encoder R110: from any buffer whose bytes below `CUR` have been written, the composed frame is extended,
has the identifier `(opc << 8) | aid` (at most 0xFFFF), length `CUR` and the bytes `BUF[0 .. CUR-1]`. -/
def Obligations.ComposeCopiesWrittenBuffer : Prop :=
  ∀ (s : State) (opc : BitVec opcBits) (aid : BitVec aidBits), s.cur.toNat ≤ 8 → payloadWritten s →
    ∃ f, compose opc aid s = .ok f ∧ f.ide = true ∧ f.id = (opc.setWidth idBits <<< 8) ||| aid.setWidth idBits ∧
      f.id.toNat ≤ 0xFFFF ∧ f.dlc = s.cur ∧ f.data.length = f.dlc.toNat ∧ f.dlc.toNat ≤ 8 ∧
      ∀ a, a < s.cur.toNat → bufRead s.buf a = f.data[a]?

/-- 93 U6: a test-only read of a byte at or beyond `CUR`, or of one that nothing has written, faults. -/
def Obligations.PeekBeyondCursorFaults : Prop :=
  ∀ (s : State) (a : Nat), (s.cur.toNat ≤ a ∨ bufRead s.buf a = none) → peek s a = .error (.unspecifiedByte a)

/-- 41_command_encoder R112. -/
def Obligations.DutySendsQuantisedValue : Prop := valueCommand .duty (·.opcDuty) (·.scaleDuty) 100000

/-- 41_command_encoder R113. -/
def Obligations.CurrentSendsQuantisedValue : Prop := valueCommand .current (·.opcCurrent) (·.scaleCurrent) 1000

/-- 41_command_encoder R114. -/
def Obligations.CurrentBrakeSendsQuantisedValue : Prop := valueCommand .currentBrake (·.opcBrake) (·.scaleBrake) 1000

/-- 41_command_encoder R115. -/
def Obligations.VelocitySendsQuantisedValue : Prop := valueCommand .velocity (·.opcVelocity) (·.scaleVelocity) 1

/-- 41_command_encoder R116. -/
def Obligations.PositionSendsQuantisedValue : Prop := valueCommand .position (·.opcPosition) (·.scalePosition) 10000

/-- 41_command_encoder R117 (decision D7): a legal mode is sent as the one payload byte. -/
def Obligations.SetOriginSendsLegalMode : Prop :=
  ∀ (s : State) (aid : BitVec aidBits) (mode : BitVec 8), mode.toNat ≤ 2 →
    ∃ t, exec (.setOrigin aid mode) s = .next t ∧ sent s t s.params.opcOrigin aid [mode]

/-- 30_encoding R73: a mode of 3 to 255 is answered with InvalidParameter, no frame, no state change. -/
def Obligations.SetOriginRejectsOtherModes : Prop :=
  ∀ (s : State) (aid : BitVec aidBits) (mode : BitVec 8), 3 ≤ mode.toNat →
    ∃ t, exec (.setOrigin aid mode) s = .next t ∧ answered s t (.fault (.invalidParameter mode))

/-- 41_command_encoder R118: eight bytes, the quantised position and the two unscaled 16-bit limits. -/
def Obligations.PositionProfileSendsThreeFields : Prop :=
  defaultParams.scalePosition = 10000 ∧
  ∀ (s : State) (aid : BitVec aidBits) (val : FcNum) (vlim alim : Int),
    ∃ t, exec (.positionProfile aid val vlim alim) s = .next t ∧
      sent s t s.params.opcPosprof aid
        (beBytes (quant s.params val s.params.scalePosition) ++ i16Bytes vlim ++ i16Bytes alim) ∧
      (s.params.mulMode = .exact →
        beBytes (quant s.params val s.params.scalePosition) = i32Bytes (trunc (val * (s.params.scalePosition : Rat))))

/-- 30_encoding R61: the identifier of every frame a command emits, bit field by bit field. -/
def Obligations.EmittedIdentifierLayout : Prop :=
  ∀ (i : Instr) (k : Kind) (aid : BitVec aidBits) (s t : State) (f : Frame),
    commandOf i = some (k, aid) → exec i s = .next t → t.tx = s.tx ++ [f] →
      f.id.extractLsb' 16 13 = 0 ∧ f.id.extractLsb' 8 8 = opcodeOf s.params k ∧ f.id.extractLsb' 0 8 = aid ∧
      f.id = (opcodeOf s.params k).setWidth idBits <<< 8 ||| aid.setWidth idBits ∧
      f.id.toNat = (opcodeOf s.params k).toNat * 256 + aid.toNat

/-- 41_command_encoder R120, derived there, with the lengths of 30_encoding R69: the shape of every frame a command
emits. -/
def Obligations.EmittedFrameShape : Prop :=
  ∀ (i : Instr) (k : Kind) (aid : BitVec aidBits) (s t : State) (f : Frame),
    commandOf i = some (k, aid) → exec i s = .next t → t.tx = s.tx ++ [f] →
      f.ide = true ∧ f.data.length = f.dlc.toNat ∧
      f.dlc = (match k with
        | .setOrigin => 1
        | .positionProfile => 8
        | .duty | .current | .currentBrake | .velocity | .position => 4)

/-- 41_command_encoder R114 and R121: with equal scales `CURRENT` and `CURRENT_BRAKE` differ only in the opcode. -/
def Obligations.CurrentAndBrakeDifferInOpcodeOnly : Prop :=
  ∀ (s : State) (aid : BitVec aidBits) (val : FcNum), s.params.scaleCurrent = s.params.scaleBrake →
    ∃ t u f, exec (.current aid val) s = .next t ∧ exec (.currentBrake aid val) s = .next u ∧
      t.tx = s.tx ++ [f] ∧
      u.tx = s.tx ++ [{ f with id := (s.params.opcBrake.setWidth idBits <<< 8) ||| aid.setWidth idBits }] ∧
      f.id = (s.params.opcCurrent.setWidth idBits <<< 8) ||| aid.setWidth idBits ∧ t.buf = u.buf ∧ t.cur = u.cur

/-- 41_command_encoder R119 and 10_state R24, derived there: the frame a command emits does not depend on `BUF`, on `CUR`
or on any earlier operation, only on the operands and the parameters. -/
def Obligations.CommandFrameForgetsState : Prop :=
  ∀ (i : Instr) (k : Kind) (aid : BitVec aidBits) (s s' t : State) (f : Frame), commandOf i = some (k, aid) →
    s.params = s'.params → exec i s = .next t → t.tx = s.tx ++ [f] →
      ∃ t', exec i s' = .next t' ∧ t'.tx = s'.tx ++ [f]

/-- The two designs of the transmit path agree (41_command_encoder R111 against the layouts of 30_encoding R61, R64 to
R66): what a command emits through `BUF`, `CUR` and the composer is the frame the layouts give. -/
def Obligations.MachineEmitsEncodedFrame : Prop :=
  ∀ (i : Instr) (f : Frame) (s : State), encodeFrame s.params i = some f →
    ∃ t, exec i s = .next t ∧ t.tx = s.tx ++ [f] ∧ t.cur.toNat = f.data.length ∧
      (∀ a, a < f.data.length → bufRead t.buf a = f.data[a]?) ∧ t.responses = s.responses ++ [.ok]

/-! ### FC-DEC -/

/-- 42_feedback_decoder R142: the five raw fields of the sample of an accepted frame. -/
def Obligations.FeedbackUnpacksRawFields : Prop :=
  ∀ (s : State) (expId : BitVec aidBits) (f : Frame) (b0 b1 b2 b3 b4 b5 b6 b7 : Byte),
    f.ide = true → f.dlc = 8 → f.id.extractLsb' 0 8 = expId → f.data = [b0, b1, b2, b3, b4, b5, b6, b7] →
    ∃ t x, exec (.decodeFeedback expId f) s = .next t ∧ t.tlm = s.tlm ++ [x] ∧
      x.posRaw = i16Of b0 b1 ∧ x.velRaw = i16Of b2 b3 ∧ x.curRaw = i16Of b4 b5 ∧ x.temp = i8Of b6 ∧ x.err = b7.toNat

/-- 42_feedback_decoder R141 with R143 (decision D8): the whole sample with its exact physical values, and everything the
decode leaves alone; the defaults of the three factors are 00_scope R10's. -/
def Obligations.FeedbackEmitsExactSample : Prop :=
  (defaultParams.lsbPosition = 1 / 10 ∧ defaultParams.lsbVelocity = 10 ∧ defaultParams.lsbCurrent = 1 / 100) ∧
  ∀ (s : State) (expId : BitVec aidBits) (f : Frame) (b0 b1 b2 b3 b4 b5 b6 b7 : Byte),
    f.ide = true → f.dlc = 8 → f.id.extractLsb' 0 8 = expId → f.data = [b0, b1, b2, b3, b4, b5, b6, b7] →
    ∃ t, exec (.decodeFeedback expId f) s = .next t ∧ t.tlm = s.tlm ++ [sampleOf s.params b0 b1 b2 b3 b4 b5 b6 b7] ∧
      sameBuffer s t ∧ t.tx = s.tx ∧ t.responses = s.responses ++ [.ok] ∧ sameRest s t

/-- 42_feedback_decoder R140 (decision D9): a frame that fails any of the three conditions is discarded. -/
def Obligations.FeedbackDiscardsOtherFrames : Prop :=
  ∀ (s : State) (expId : BitVec aidBits) (f : Frame),
    (f.ide = false ∨ f.dlc ≠ 8 ∨ f.id.extractLsb' 0 8 ≠ expId) →
    ∃ t, exec (.decodeFeedback expId f) s = .next t ∧ answered s t .discard

/-- 30_encoding R62, second sentence: `id[28:8]` of an inbound frame is not read (the comparison of `id[7:0]` is said by
`FeedbackEmitsExactSample` and `FeedbackDiscardsOtherFrames`). -/
def Obligations.FeedbackIgnoresUpperIdentifier : Prop :=
  ∀ (s : State) (expId : BitVec aidBits) (f : Frame) (id : BitVec idBits), id.extractLsb' 0 8 = f.id.extractLsb' 0 8 →
    exec (.decodeFeedback expId { f with id := id }) s = exec (.decodeFeedback expId f) s

/-- 42_feedback_decoder R145, derived there: unpacking is a bijection between the eight-byte payloads and the raw records
in range, and scaling loses nothing. -/
def Obligations.UnpackIsBijection : Prop :=
  (∀ d : FbPayload, rawInRange (unpack d)) ∧
  (∀ r : Raw, rawInRange r → ∃ d : FbPayload, unpack d = r ∧ ∀ d' : FbPayload, unpack d' = r → d' = d) ∧
  ∀ (p : Params) (r r' : Raw), scaleSample p r = scaleSample p r' ↔ r = r'

/-- 42_feedback_decoder R144, derived there with D8: the ranges of every sample a decode emits, and of its physical values
at the default factors. -/
def Obligations.EmittedSampleRanges : Prop :=
  ∀ (i : Instr) (s t : State) (x : Sample), exec i s = .next t → t.tlm = s.tlm ++ [x] →
    sampleShape s.params x ∧
    (s.params.lsbPosition = 1 / 10 → s.params.lsbVelocity = 10 → s.params.lsbCurrent = 1 / 100 →
      (-32768 / 10 ≤ x.position ∧ x.position ≤ 32767 / 10) ∧ (-327680 ≤ x.velocity ∧ x.velocity ≤ 327670) ∧
      (-32768 / 100 ≤ x.current ∧ x.current ≤ 32767 / 100))

/-- 70_reset R205, derived there: a `POSITION_PROFILE` frame handed back under its own actuator id decodes as telemetry,
with the fields the rule lists. -/
def Obligations.ProfileFrameLoopsBackAsTelemetry : Prop :=
  ∀ (s : State) (aid : BitVec aidBits) (val : FcNum) (vlim alim : Int),
    ∃ t f u x, exec (.positionProfile aid val vlim alim) s = .next t ∧ t.tx = s.tx ++ [f] ∧
      exec (.decodeFeedback aid f) t = .next u ∧ u.tlm = s.tlm ++ [x] ∧
      x.posRaw = ((quant s.params val s.params.scalePosition).extractLsb' 16 16).toInt ∧
      x.velRaw = ((quant s.params val s.params.scalePosition).extractLsb' 0 16).toInt ∧
      x.curRaw = (BitVec.ofInt 16 vlim).toInt ∧ x.temp = ((BitVec.ofInt 16 alim).extractLsb' 8 8).toInt ∧
      x.err = ((BitVec.ofInt 16 alim).extractLsb' 0 8).toNat

/-- 70_reset R205, derived there: a frame of any other kind handed back is discarded, under every expected id. -/
def Obligations.OtherFramesDoNotLoopBack : Prop :=
  ∀ (i : Instr) (k : Kind) (aid expId : BitVec aidBits) (s t : State) (f : Frame), commandOf i = some (k, aid) →
    k ≠ .positionProfile → exec i s = .next t → t.tx = s.tx ++ [f] →
      ∃ u, exec (.decodeFeedback expId f) t = .next u ∧ answered t u .discard

/-! ### Responses, faults and the two paths, over all operations -/

/-- 60_exceptions R160: a next state carries exactly one response more, and no operation changes the parameters or what
the host presents afterwards (the traces are the model's, log 3). -/
def Obligations.EveryOperationAnswersOnce : Prop :=
  ∀ (i : Instr) (s t : State), exec i s = .next t → (∃ r, t.responses = s.responses ++ [r]) ∧ sameRest s t

/-- 60_exceptions R160 (decision D18): an operation that answers a fault leaves no other trace. -/
def Obligations.FaultLeavesNoOtherTrace : Prop :=
  ∀ (i : Instr) (s t : State) (f : FaultCause), exec i s = .next t → t.responses = s.responses ++ [.fault f] →
    t = { s with responses := s.responses ++ [.fault f] }

/-- 60_exceptions R163, derived there, with the info R161 records: which operation can answer which fault. -/
def Obligations.FaultsBelongToTheirOperations : Prop :=
  ∀ (i : Instr) (s t : State) (f : FaultCause), exec i s = .next t → t.responses = s.responses ++ [.fault f] →
    match f with
    | .invalidParameter mode => ∃ aid, i = .setOrigin aid mode ∧ 2 < mode.toNat
    | .invalidKind _ => False
    | .bufferOverflow cur => cur = s.cur ∧
        ((∃ v, i = .appendI32Be v ∧ 8 < cur.toNat + 4) ∨ (∃ v, i = .appendI16Be v ∧ 8 < cur.toNat + 2) ∨
          ∃ v, i = .appendU8 v ∧ 8 < cur.toNat + 1)
    | .readOutOfRange offset => ∃ bytes : List Byte,
        (i = .readI16Be bytes offset ∧ bytes.length < offset + 2) ∨
          (i = .readI8 bytes offset ∧ bytes.length < offset + 1) ∨
          (i = .readU8 bytes offset ∧ bytes.length < offset + 1)

/-- 10_state R30, R31: only a command emits a frame, only a decode emits a sample, and one at most. -/
def Obligations.OnlyItsOwnPathEmits : Prop :=
  ∀ (i : Instr) (s t : State), exec i s = .next t →
    (t.tx = s.tx ∨ ((∃ k aid, commandOf i = some (k, aid)) ∧ ∃ f, t.tx = s.tx ++ [f])) ∧
    (t.tlm = s.tlm ∨ ((∃ e f, i = .decodeFeedback e f) ∧ ∃ x, t.tlm = s.tlm ++ [x])) ∧
    (writesBuffer i = false → t.buf = s.buf ∧ t.cur = s.cur)

/-- 10_state R21 ("no rule reads them"): no operation reads a byte of `BUF` that has no value, from any state; so no
operation stops the machine with a fault. -/
def Obligations.NoOperationReadsUnspecifiedByte : Prop :=
  ∀ (s : State) (r : Fault), (∀ i, exec i s ≠ .fault r) ∧ step s ≠ .fault r

/-- 20_memory R49, 10_state R20: the paths share no state, so an operation that writes the buffer and one that does not
leave the same buffer and the same ports in either order (their responses stand in issue order). -/
def Obligations.PathsAreIndependent : Prop :=
  ∀ (i j : Instr) (s a b : State), writesBuffer i = true → writesBuffer j = false →
    exec i s = .next a → exec j a = .next b →
      ∃ c d, exec j s = .next c ∧ exec i c = .next d ∧ d.params = b.params ∧ d.buf = b.buf ∧ d.cur = b.cur ∧
        d.inputs = b.inputs ∧ d.tx = b.tx ∧ d.tlm = b.tlm

/-! ### The step, reset and the invariant -/

/-- A step runs the operation that the record presented next selects (10_state R26, 20_memory R49). -/
def Obligations.StepRunsPresentedOperation : Prop :=
  ∀ (s : State) (r : Request) (rest : List Input) (i : Instr), s.inputs = .op r :: rest →
    decodeRequest r = .ok i → i.wellFormed s.params = true → step s = exec i { s with inputs := rest }

/-- 30_encoding R71 (decision D12): kind code 7 is answered with InvalidKind, before any other operand is looked at. -/
def Obligations.KindSevenIsInvalid : Prop :=
  ∀ (s : State) (aid : BitVec aidBits) (val : HostNum) (mode : BitVec 8) (vlim alim : Int) (rest : List Input),
    s.inputs = .op (.cmd 7 aid val mode vlim alim) :: rest →
      ∃ t, step s = .next t ∧ answered { s with inputs := rest } t (.fault (.invalidKind 7))

/-- 93 U3, 92 D4: a value that denotes no real is refused at the boundary by every kind that uses `VAL`, and ignored by
SetOrigin, which does not (10_state R29). -/
def Obligations.BoundaryRefusesNonFinite : Prop :=
  ∀ (s : State) (code : BitVec 3) (aid : BitVec aidBits) (val : HostNum) (mode : BitVec 8) (vlim alim : Int)
    (rest : List Input), s.inputs = .op (.cmd code aid val mode vlim alim) :: rest → hostNum val = none →
      (code.toNat ≠ 5 → code.toNat ≠ 7 → step s = .refused .nonFinite) ∧
      (code.toNat = 5 → step s = exec (.setOrigin aid mode) { s with inputs := rest })

/-- The model's choice (log 2): with nothing presented a step changes nothing. -/
def Obligations.IdleStepChangesNothing : Prop := ∀ s : State, s.inputs = [] → step s = .next s

/-- 70_reset R200 to R202 (decision D10): the reset event sets `CUR` to 0, leaves no byte of `BUF` with a value and emits
nothing. -/
def Obligations.ResetEventClearsBuffer : Prop :=
  ∀ (s : State) (rest : List Input), s.inputs = .reset :: rest →
    ∃ t, step s = .next t ∧ t.cur = 0 ∧ (∀ a, bufRead t.buf a = none) ∧ sameOutputs s t ∧
      t.responses = s.responses ∧ t.params = s.params ∧ t.inputs = rest

/-- 10_state R34 (decision D10): FC right after reset. The empty traces and inputs are the model's (logs 1, 3). -/
def Obligations.ResetStateIsEmpty : Prop :=
  State.reset.cur = 0 ∧ (∀ a, bufRead State.reset.buf a = none) ∧ State.reset.tx = [] ∧ State.reset.tlm = [] ∧
    State.reset.inputs = [] ∧ State.reset.responses = []

/-- 00_scope R9 and the factors of R10: the literals of the source at reset. That the parameters stand in State is the
model's choice (log 5). -/
def Obligations.ResetScalesAreTheSources : Prop :=
  State.reset.params.scaleDuty = 100000 ∧ State.reset.params.scaleCurrent = 1000 ∧
    State.reset.params.scaleBrake = 1000 ∧ State.reset.params.scaleVelocity = 1 ∧
    State.reset.params.scalePosition = 10000 ∧ State.reset.params.lsbPosition = 1 / 10 ∧
    State.reset.params.lsbVelocity = 10 ∧ State.reset.params.lsbCurrent = 1 / 100

/-- The invariant holds right after reset. -/
def Obligations.ResetMeetsInvariant : Prop := StateInv State.reset

/-- 10_state R22 ("Invariant, kept by every rule"), 41 R120, 42 R144: every step keeps the invariant, whatever the host
presents. -/
def Obligations.StepKeepsInvariant : Prop := ∀ s t : State, StateInv s → step s = .next t → StateInv t

/-- 10_state R27, R35: no step changes a parameter, the reset event included (log 5). -/
def Obligations.StepKeepsParameters : Prop := ∀ s t : State, step s = .next t → t.params = s.params

/-! ### Encodings -/

/-- The wire form loses nothing that it admits (30_encoding R61 to R69): at pairwise different opcodes and exact products,
a command whose operands stand at values of the encoding is read back from its frame, and from its bytes wherever they
stand in a longer list (byte image: log 14). -/
def Obligations.WireFormRoundTrips : Prop :=
  ∀ (p : Params) (i : Instr) (rest : List Byte), paramsPositive p = true → opcodesDistinct p → p.mulMode = .exact →
    wireExact p i → ∃ f, encodeFrame p i = some f ∧ decodeFrame p f = .ok i ∧
      ∃ bs, encodeBytes p i = some bs ∧ decodeBytes p (bs ++ rest) = .ok (i, rest)

/-- The other direction: a frame that reads as a command is that command's frame, at any opcodes. -/
def Obligations.ReadFramesReencode : Prop :=
  ∀ (p : Params) (f : Frame) (i : Instr), paramsPositive p = true → p.mulMode = .exact →
    decodeFrame p f = .ok i → encodeFrame p i = some f

/-- The words of the opcode map (30_encoding R68) at the default opcodes, which are PRESUMED (log 5), with the actuator id
0x68 and an operand word of zeros. -/
def Obligations.OpcodeMapWordsDecode : Prop :=
  decodeTableWord 32 0x00000068 = some (.duty 0x68 0) ∧ decodeTableWord 32 0x00000168 = some (.current 0x68 0) ∧
    decodeTableWord 32 0x00000268 = some (.currentBrake 0x68 0) ∧
    decodeTableWord 32 0x00000368 = some (.velocity 0x68 0) ∧
    decodeTableWord 32 0x00000468 = some (.position 0x68 0) ∧
    decodeTableWord 32 0x00000568 = some (.setOrigin 0x68 0) ∧
    decodeTableWord 32 0x00000668 = some (.positionProfile 0x68 0 0 0) ∧ decodeTableWord 32 0x00000768 = none

/-- Every operation has an operand record that selects it (41_command_encoder R121, 10_state R32). -/
def Obligations.EveryOperationIsSelectable : Prop := ∀ i : Instr, decodeRequest (encodeRequest i) = .ok i

/-! ### The host's control cycle -/

/-- 60_exceptions R180: a running cycle that sees the cancellation signal stops; stopping sends exactly one frame of the
same kind with payload zero, whatever the policy; then the cycle is idle and presents nothing more. -/
def Obligations.CancelSendsOneNeutralFrame : Prop :=
  ∀ (policy : StopPolicy) (env : TickEnv) (s : State) (aid : BitVec aidBits) (a : Active),
    activeKind a = .duty ∨ activeKind a = .current ∨ activeKind a = .currentBrake ∨ activeKind a = .velocity →
    s.inputs = (tick policy env (.stopping aid a)).inputs →
    (env.cancel = true → (tick policy env (.running aid a)).next = .stopping aid a) ∧
    (∃ t, runSteps s.inputs.length s = .next t ∧ t.inputs = [] ∧
      t.tx = s.tx ++ [{ ide := true, id := (opcodeOf s.params (activeKind a)).setWidth idBits <<< 8 ||| aid.setWidth idBits,
                        dlc := 4, data := [0, 0, 0, 0] }]) ∧
    (tick policy env (.stopping aid a)).next = .idle ∧
    ∀ env' : TickEnv, (tick policy env' .idle).inputs = [] ∧ (tick policy env' .idle).next = .idle

/-- 60_exceptions R181 (decision D17): a Position-family cycle stops by sending its last frame once more, or, under the
policy `skip` (93 U1), nothing. -/
def Obligations.PositionStopRepeatsLastFrame : Prop :=
  ∀ (env : TickEnv) (s : State) (aid : BitVec aidBits) (a : Active) (f : Frame),
    activeKind a = .position ∨ activeKind a = .positionProfile →
    (activeInstr aid a).wellFormed s.params = true → encodeFrame s.params (activeInstr aid a) = some f →
    s.inputs = (tick defaultPolicy env (.stopping aid a)).inputs →
    (∃ t, runSteps s.inputs.length s = .next t ∧ t.inputs = [] ∧ t.tx = s.tx ++ [f]) ∧
    (tick defaultPolicy env (.stopping aid a)).next = .idle ∧ (tick .skip env (.stopping aid a)).inputs = []

/-- 60_exceptions R177, R178: a tick of a running cycle, carried out by FC, emits the active command's frame once and at
most one sample, and goes on running unless cancelled (R179), a failed transmit included (R182). -/
def Obligations.RunningTickSendsActiveCommand : Prop :=
  ∀ (policy : StopPolicy) (env : TickEnv) (s : State) (aid : BitVec aidBits) (a : Active),
    (activeInstr aid a).wellFormed s.params = true → (∀ g, env.inbound = some g → g.wellFormed = true) →
    s.inputs = (tick policy env (.running aid a)).inputs →
    (∃ t f, runSteps s.inputs.length s = .next t ∧ t.inputs = [] ∧ encodeFrame s.params (activeInstr aid a) = some f ∧
      t.tx = s.tx ++ [f] ∧ (t.tlm = s.tlm ∨ ∃ x, t.tlm = s.tlm ++ [x])) ∧
    (env.cancel = false → (tick policy env (.running aid a)).next = .running aid a) ∧
    (tick policy env (.running aid a)).reported = env.transmitError
end

