-- ==== Sys2Proof/Laws/State.lean ====
section
/-! SUPPORT. One lemma per field per update of State, so that no later proof unfolds a record update. -/

namespace Sys2Proof.Machine

@[simp] theorem State.setCur_params (s : State) (v : BitVec 4) : (s.setCur v).params = s.params := rfl
@[simp] theorem State.setCur_buf (s : State) (v : BitVec 4) : (s.setCur v).buf = s.buf := rfl
@[simp] theorem State.setCur_cur (s : State) (v : BitVec 4) : (s.setCur v).cur = v := rfl
@[simp] theorem State.setCur_inputs (s : State) (v : BitVec 4) : (s.setCur v).inputs = s.inputs := rfl
@[simp] theorem State.setCur_tx (s : State) (v : BitVec 4) : (s.setCur v).tx = s.tx := rfl
@[simp] theorem State.setCur_tlm (s : State) (v : BitVec 4) : (s.setCur v).tlm = s.tlm := rfl
@[simp] theorem State.setCur_responses (s : State) (v : BitVec 4) : (s.setCur v).responses = s.responses := rfl

@[simp] theorem State.setBuf_params (s : State) (m : Memory) : (s.setBuf m).params = s.params := rfl
@[simp] theorem State.setBuf_buf (s : State) (m : Memory) : (s.setBuf m).buf = m := rfl
@[simp] theorem State.setBuf_cur (s : State) (m : Memory) : (s.setBuf m).cur = s.cur := rfl
@[simp] theorem State.setBuf_inputs (s : State) (m : Memory) : (s.setBuf m).inputs = s.inputs := rfl
@[simp] theorem State.setBuf_tx (s : State) (m : Memory) : (s.setBuf m).tx = s.tx := rfl
@[simp] theorem State.setBuf_tlm (s : State) (m : Memory) : (s.setBuf m).tlm = s.tlm := rfl
@[simp] theorem State.setBuf_responses (s : State) (m : Memory) : (s.setBuf m).responses = s.responses := rfl

@[simp] theorem State.emitTx_params (s : State) (f : Frame) : (s.emitTx f).params = s.params := rfl
@[simp] theorem State.emitTx_buf (s : State) (f : Frame) : (s.emitTx f).buf = s.buf := rfl
@[simp] theorem State.emitTx_cur (s : State) (f : Frame) : (s.emitTx f).cur = s.cur := rfl
@[simp] theorem State.emitTx_inputs (s : State) (f : Frame) : (s.emitTx f).inputs = s.inputs := rfl
@[simp] theorem State.emitTx_tx (s : State) (f : Frame) : (s.emitTx f).tx = s.tx ++ [f] := rfl
@[simp] theorem State.emitTx_tlm (s : State) (f : Frame) : (s.emitTx f).tlm = s.tlm := rfl
@[simp] theorem State.emitTx_responses (s : State) (f : Frame) : (s.emitTx f).responses = s.responses := rfl

@[simp] theorem State.emitTlm_params (s : State) (x : Sample) : (s.emitTlm x).params = s.params := rfl
@[simp] theorem State.emitTlm_buf (s : State) (x : Sample) : (s.emitTlm x).buf = s.buf := rfl
@[simp] theorem State.emitTlm_cur (s : State) (x : Sample) : (s.emitTlm x).cur = s.cur := rfl
@[simp] theorem State.emitTlm_inputs (s : State) (x : Sample) : (s.emitTlm x).inputs = s.inputs := rfl
@[simp] theorem State.emitTlm_tx (s : State) (x : Sample) : (s.emitTlm x).tx = s.tx := rfl
@[simp] theorem State.emitTlm_tlm (s : State) (x : Sample) : (s.emitTlm x).tlm = s.tlm ++ [x] := rfl
@[simp] theorem State.emitTlm_responses (s : State) (x : Sample) : (s.emitTlm x).responses = s.responses := rfl

@[simp] theorem State.respond_params (s : State) (r : Response) : (s.respond r).params = s.params := rfl
@[simp] theorem State.respond_buf (s : State) (r : Response) : (s.respond r).buf = s.buf := rfl
@[simp] theorem State.respond_cur (s : State) (r : Response) : (s.respond r).cur = s.cur := rfl
@[simp] theorem State.respond_inputs (s : State) (r : Response) : (s.respond r).inputs = s.inputs := rfl
@[simp] theorem State.respond_tx (s : State) (r : Response) : (s.respond r).tx = s.tx := rfl
@[simp] theorem State.respond_tlm (s : State) (r : Response) : (s.respond r).tlm = s.tlm := rfl
@[simp] theorem State.respond_responses (s : State) (r : Response) : (s.respond r).responses = s.responses ++ [r] := rfl

@[simp] theorem State.setInputs_params (s : State) (l : List Input) : (s.setInputs l).params = s.params := rfl
@[simp] theorem State.setInputs_buf (s : State) (l : List Input) : (s.setInputs l).buf = s.buf := rfl
@[simp] theorem State.setInputs_cur (s : State) (l : List Input) : (s.setInputs l).cur = s.cur := rfl
@[simp] theorem State.setInputs_inputs (s : State) (l : List Input) : (s.setInputs l).inputs = l := rfl
@[simp] theorem State.setInputs_tx (s : State) (l : List Input) : (s.setInputs l).tx = s.tx := rfl
@[simp] theorem State.setInputs_tlm (s : State) (l : List Input) : (s.setInputs l).tlm = s.tlm := rfl
@[simp] theorem State.setInputs_responses (s : State) (l : List Input) : (s.setInputs l).responses = s.responses := rfl

/-- States are equal when their fields are. -/
theorem State.ext_fields {s t : State} (h1 : s.params = t.params) (h2 : s.buf = t.buf) (h3 : s.cur = t.cur)
    (h4 : s.inputs = t.inputs) (h5 : s.tx = t.tx) (h6 : s.tlm = t.tlm) (h7 : s.responses = t.responses) : s = t := by
  cases s; cases t; simp_all

end Sys2Proof.Machine
end

