-- ==== Sys2Proof/Laws/Memory.lean ====
section
/-! SUPPORT. The laws of `BUF`: reading after writing, and that every operation keeps the canonical form. -/

namespace Sys2Proof.Machine

theorem bufRead_bufWrite (m : Memory) (a c : Nat) (b : Byte) :
    bufRead (bufWrite m a b) c = if c = a then some b else bufRead m c := by
  induction m with
  | nil => simp [bufWrite, bufRead, eq_comm]
  | cons e m ih =>
    obtain ⟨x, y⟩ := e
    simp only [bufWrite]
    split
    · simp only [bufRead, eq_comm]
    · split
      · subst_vars
        simp only [bufRead]
        grind
      · simp only [bufRead, ih]
        grind

/-- A read after writing a byte list sees its bytes inside, and the old bytes outside. -/
theorem bufRead_writeBytes (bs : List Byte) (m : Memory) (a c : Nat) :
    bufRead (writeBytes m a bs) c = if a ≤ c ∧ c < a + bs.length then bs[c - a]? else bufRead m c := by
  induction bs generalizing m a with
  | nil => simp only [writeBytes, List.length_nil]; grind
  | cons b bs ih =>
    rw [writeBytes, ih, bufRead_bufWrite]
    rcases Nat.lt_trichotomy c a with h | h | h
    · rw [if_neg (by omega), if_neg (by omega), if_neg (by simp; omega)]
    · subst h
      rw [if_neg (by omega), if_pos rfl, if_pos (by simp)]
      simp
    · obtain ⟨d, rfl⟩ : ∃ d, c = a + 1 + d := ⟨c - a - 1, by omega⟩
      have h1 : a + 1 + d - (a + 1) = d := by omega
      have h2 : a + 1 + d - a = d + 1 := by omega
      rw [h1, h2, List.getElem?_cons_succ, List.length_cons]
      by_cases hd : d < bs.length
      · rw [if_pos (by omega), if_pos (by omega)]
      · rw [if_neg (by omega), if_neg (by omega), if_neg (by omega)]

/-- Writing two lists one after the other is writing their concatenation. -/
theorem writeBytes_append (xs ys : List Byte) (m : Memory) (a : Nat) :
    writeBytes m a (xs ++ ys) = writeBytes (writeBytes m a xs) (a + xs.length) ys := by
  induction xs generalizing m a with
  | nil => rfl
  | cons x xs ih => simp only [List.cons_append, writeBytes, ih, List.length_cons, Nat.add_assoc, Nat.add_comm 1]

theorem memoryWf_iff (m : Memory) :
    memoryWf m = true ↔ (m.map Prod.fst).Pairwise (· < ·) ∧ ∀ c ∈ m, c.1 < maxDlc := by
  simp [memoryWf]

theorem bufWrite_addr {m : Memory} {a : Nat} {b : Byte} {c : Host.Cell} (h : c ∈ bufWrite m a b) :
    c.1 = a ∨ c ∈ m := by
  induction m with
  | nil => simp_all [bufWrite]
  | cons e m ih =>
    obtain ⟨x, y⟩ := e
    simp only [bufWrite] at h
    split at h
    · grind
    · split at h <;> grind

theorem bufWrite_wf {m : Memory} {a : Nat} (b : Byte) (h : memoryWf m = true) (ha : a < maxDlc) :
    memoryWf (bufWrite m a b) = true := by
  rw [memoryWf_iff] at h ⊢
  refine ⟨?_, fun c hc => (bufWrite_addr hc).elim (fun e => e ▸ ha) (h.2 c)⟩
  replace h := h.1
  induction m with
  | nil => simp [bufWrite]
  | cons e m ih =>
    obtain ⟨x, y⟩ := e
    simp only [bufWrite]
    simp only [List.map_cons, List.pairwise_cons, List.mem_map] at h
    split
    · rename_i hlt
      simp only [List.map_cons, List.pairwise_cons, List.mem_cons, List.mem_map]
      refine ⟨?_, h⟩
      rintro z (rfl | hz)
      · exact hlt
      · exact Nat.lt_trans hlt (h.1 z hz)
    · split
      · subst_vars
        simpa only [List.map_cons, List.pairwise_cons, List.mem_map] using h
      · simp only [List.map_cons, List.pairwise_cons, List.mem_map]
        refine ⟨?_, ih h.2⟩
        rintro z ⟨c, hc, rfl⟩
        rcases bufWrite_addr hc with e | e
        · omega
        · exact h.1 _ ⟨c, e, rfl⟩

theorem writeBytes_wf {m : Memory} (bs : List Byte) {a : Nat} (h : memoryWf m = true) (ha : a + bs.length ≤ maxDlc) :
    memoryWf (writeBytes m a bs) = true := by
  induction bs generalizing m a with
  | nil => exact h
  | cons b bs ih =>
    simp only [List.length_cons] at ha
    exact ih (bufWrite_wf b h (by omega)) (by omega)

theorem reset_memoryWf : memoryWf State.reset.buf = true := by decide

theorem resetEvent_memoryWf (s : State) : memoryWf (resetEvent s).buf = true := by
  simp [resetEvent, memoryWf]

end Sys2Proof.Machine
end

