-- ==== Sys2Proof/Laws/Operands.lean ====
section
/-! SUPPORT. What the conversions and the product are. -/

namespace Sys2Proof.Machine

@[simp] theorem beBytes_length {N : Nat} (u : BitVec N) : (beBytes u).length = N / 8 := by simp [beBytes]

theorem beBytes_32 (u : BitVec 32) :
    beBytes u = [u.extractLsb' 24 8, u.extractLsb' 16 8, u.extractLsb' 8 8, u.extractLsb' 0 8] := rfl

theorem beBytes_16 (u : BitVec 16) : beBytes u = [u.extractLsb' 8 8, u.extractLsb' 0 8] := rfl

theorem beBytes_8 (u : BitVec 8) : beBytes u = [u] := by
  simp [beBytes, List.range_succ]

/-- The product is the exact one. -/
theorem scaleRat_eq_mul (n : Int) (q : Rat) : scaleRat n q = n * q := by
  unfold scaleRat
  rw [Rat.mkRat_eq_div]
  push_cast
  rw [mul_div_assoc, Rat.num_div_den]

@[simp] theorem scaleRat_zero (n : Int) : scaleRat n 0 = 0 := by simp [scaleRat_eq_mul]

@[simp] theorem trunc_intCast (n : Int) : trunc (n : Rat) = n := by
  unfold trunc
  split
  · simp
  · rw [← Rat.intCast_neg, Rat.floor_intCast, Int.neg_neg]

theorem roundTo_exact (q : Rat) : roundTo .exact q = some q := rfl

theorem roundTo_zero (fmt : FloatFmt) : roundTo fmt 0 = some 0 := by cases fmt <;> rfl

/-- At the default product mode the scaled operand is truncated from the exact product. -/
theorem scaledTrunc_exact {p : Params} (h : p.mulMode = .exact) (v : FcNum) (S : Nat) :
    scaledTrunc p v S = trunc ((S : Rat) * v) := by
  simp [scaledTrunc, h, scaleRat_eq_mul]

/-- A zero operand quantises to zero in every mode. -/
theorem quant_zero (p : Params) (S : Nat) : quant p 0 S = 0 := by
  have h : trunc 0 = 0 := by decide
  unfold quant scaledTrunc
  cases p.mulMode <;> simp [roundTo_zero, h, wrap]

theorem appendFits_iff (cur : BitVec 4) (n : Nat) : appendFits cur n = true ↔ cur.toNat + n ≤ 8 := by
  rw [appendFits, decide_eq_true_iff]

theorem readFits_iff (bytes : List Byte) (offset n : Nat) :
    readFits bytes offset n = true ↔ offset + n ≤ bytes.length := by
  simp [readFits]

theorem legalMode_iff (mode : BitVec 8) : legalMode mode = true ↔ mode.toNat ≤ 2 := by simp [legalMode]

theorem accept_iff (f : Frame) (expId : BitVec aidBits) :
    accept f expId = true ↔ f.ide = true ∧ f.dlc = 8 ∧ f.id.extractLsb' 0 8 = expId := by
  simp [accept, fbDlc, and_assoc]

end Sys2Proof.Machine
end

