-- ==== Sys2Proof/Laws/Pack.lean ====
section
/-! SUPPORT. Everything an append and a read can do. -/

namespace Sys2Proof.Machine

/-- An append that fits writes its bytes at `CUR` and advances it. -/
theorem append_fits {bs : List Byte} {s : State} (h : s.cur.toNat + bs.length ≤ 8) :
    append bs s = .ok ((s.setBuf (writeBytes s.buf s.cur.toNat bs)).setCur (s.cur + BitVec.ofNat 4 bs.length)) := by
  rw [append, if_pos ((appendFits_iff _ _).2 h)]

/-- An append that does not fit is a buffer overflow. -/
theorem append_overflow {bs : List Byte} {s : State} (h : 8 < s.cur.toNat + bs.length) :
    append bs s = .error (.bufferOverflow s.cur) := by
  rw [append, if_neg (by rw [appendFits_iff]; omega)]

/-- The cursor after an append that fits is the sum: it does not wrap. -/
theorem cur_advance {c : BitVec 4} {n : Nat} (h : c.toNat + n ≤ 8) : (c + BitVec.ofNat 4 n).toNat = c.toNat + n := by
  rw [BitVec.toNat_add, BitVec.toNat_ofNat]; omega

/-- Everything an append operation can do. -/
theorem appendOp_cases (bs : List Byte) (s : State) :
    (s.cur.toNat + bs.length ≤ 8 ∧ appendOp bs s =
        .next (((s.setBuf (writeBytes s.buf s.cur.toNat bs)).setCur (s.cur + BitVec.ofNat 4 bs.length)).respond .ok)) ∨
      (8 < s.cur.toNat + bs.length ∧ appendOp bs s = .next (s.respond (.fault (.bufferOverflow s.cur)))) := by
  rcases Nat.lt_or_ge 8 (s.cur.toNat + bs.length) with h | h
  · exact .inr ⟨h, by rw [appendOp, append_overflow h]; rfl⟩
  · exact .inl ⟨h, by rw [appendOp, append_fits h]⟩

theorem memRead_fits {rxd : List Byte} {addr n : Nat} (h : addr + n ≤ rxd.length) :
    memRead rxd addr n = .ok (memWord rxd addr n) := by
  rw [memRead, if_pos ((readFits_iff _ _ _).2 h)]

theorem memRead_outOfRange {rxd : List Byte} {addr n : Nat} (h : rxd.length < addr + n) :
    memRead rxd addr n = .error (.readOutOfRange addr) := by
  rw [memRead, if_neg (by rw [readFits_iff]; omega)]

/-- A read operation answers an integer or a fault, and does nothing else. -/
theorem readOp_cases (r : Except FaultCause Int) (s : State) :
    (∃ n, r = .ok n ∧ readOp r s = .next (s.respond (.value n))) ∨
      ∃ f, r = .error f ∧ readOp r s = .next (s.respond (.fault f)) := by
  cases r with
  | ok n => exact .inl ⟨n, rfl, rfl⟩
  | error f => exact .inr ⟨f, rfl, rfl⟩

end Sys2Proof.Machine
end

