-- ==== Sys2Proof/Laws/Decoder.lean ====
section
/-! SUPPORT. What unpacking a payload gives, and everything a decode can do. -/

namespace Sys2Proof.Machine

/-- A byte list is a payload of the bare decoder exactly when it has 8 bytes. -/
theorem fbPayload_cases (data : List Byte) :
    (∃ rxd : FbPayload, data = rxd.1 ∧ fbPayload data = some rxd) ∨ (data.length ≠ fbDlc ∧ fbPayload data = none) := by
  unfold fbPayload
  by_cases h : data.length = fbDlc
  · exact .inl ⟨⟨data, h⟩, rfl, dif_pos h⟩
  · exact .inr ⟨h, dif_neg h⟩

@[simp] theorem fbPayload_val (rxd : FbPayload) : fbPayload rxd.1 = some rxd := dif_pos rxd.2

/-- The five fields are what the read primitives return, none of which is out of range (42_feedback_decoder R142). -/
theorem unpack_reads (rxd : FbPayload) :
    readI16 rxd.1 0 = .ok (unpack rxd).pos ∧ readI16 rxd.1 2 = .ok (unpack rxd).vel ∧
      readI16 rxd.1 4 = .ok (unpack rxd).cur ∧ readI8 rxd.1 6 = .ok (unpack rxd).temp ∧
      readU8 rxd.1 7 = .ok (unpack rxd).err := by
  have h : rxd.1.length = 8 := rxd.2
  simp only [readI16, readI8, readU8]
  rw [memRead_fits (by omega), memRead_fits (by omega), memRead_fits (by omega), memRead_fits (by omega),
    memRead_fits (by omega)]
  exact ⟨rfl, rfl, rfl, rfl, rfl⟩

theorem unpack_bytes (b0 b1 b2 b3 b4 b5 b6 b7 : Byte) :
    unpack ⟨[b0, b1, b2, b3, b4, b5, b6, b7], rfl⟩ =
      { pos := sext (BitVec.ofNat 16 (beUint [b0, b1])), vel := sext (BitVec.ofNat 16 (beUint [b2, b3])),
        cur := sext (BitVec.ofNat 16 (beUint [b4, b5])), temp := sext (BitVec.ofNat 8 (beUint [b6])),
        err := zext (BitVec.ofNat 8 (beUint [b7])) } := rfl

/-- Everything a decode can do: a sample, a discard, or the refusal of a record no port carries. -/
theorem execDecodeFeedback_cases (expId : BitVec aidBits) (f : Frame) (s : State) :
    (accept f expId = true ∧ ∃ rxd : FbPayload, f.data = rxd.1 ∧
        execDecodeFeedback expId f s = .next ((s.emitTlm (scaleSample s.params (unpack rxd))).respond .ok)) ∨
      (accept f expId = true ∧ f.data.length ≠ fbDlc ∧ execDecodeFeedback expId f s = .refused .malformedOperand) ∨
      (accept f expId = false ∧ execDecodeFeedback expId f s = .next (s.respond .discard)) := by
  unfold execDecodeFeedback
  cases ha : accept f expId
  · exact .inr (.inr ⟨rfl, rfl⟩)
  · rcases fbPayload_cases f.data with ⟨rxd, hd, e⟩ | ⟨hl, e⟩
    · exact .inl ⟨rfl, rxd, hd, by rw [e]; rfl⟩
    · exact .inr (.inl ⟨rfl, hl, by rw [e]; rfl⟩)

end Sys2Proof.Machine
end

