-- ==== Sys2Proof/Laws/Encoder.lean ====
section
/-! SUPPORT. What the composer and a command operation do. -/

namespace Sys2Proof.Machine

/-- The fields of a command end up one after the other. -/
theorem appendAll_fits (fields : List (List Byte)) (s : State) (h : s.cur.toNat + fields.flatten.length ≤ 8) :
    appendAll fields s = .ok ((s.setBuf (writeBytes s.buf s.cur.toNat fields.flatten)).setCur
      (s.cur + BitVec.ofNat 4 fields.flatten.length)) := by
  induction fields generalizing s with
  | nil => simp [appendAll, State.setBuf, State.setCur, writeBytes]
  | cons bs fields ih =>
    rw [List.flatten_cons, List.length_append] at h
    have h1 : s.cur.toNat + bs.length ≤ 8 := by omega
    rw [appendAll, append_fits h1]
    simp only
    rw [ih _ (by simp only [State.setCur_cur, cur_advance h1]; omega)]
    simp only [State.setCur_buf, State.setBuf_buf, State.setCur_cur, cur_advance h1, List.flatten_cons,
      writeBytes_append, List.length_append]
    congr 1
    apply State.ext_fields <;> simp [BitVec.add_assoc, ← BitVec.ofNat_add]

/-- The composer copies a written payload. -/
theorem mapM_peek {s : State} {data : List Byte} (n : Nat) (hn : n ≤ s.cur.toNat) (hl : n ≤ data.length)
    (h : ∀ a, a < n → bufRead s.buf a = data[a]?) :
    (List.range n).mapM (peek s) = (.ok (data.take n) : Except Fault (List Byte)) := by
  induction n with
  | zero => rfl
  | succ n ih =>
    rw [List.range_succ, List.mapM_append, ih (by omega) (by omega) fun a ha => h a (by omega)]
    have hd : data[n]? = some (data[n]'(by omega)) := List.getElem?_eq_getElem (by omega)
    have hp : peek s n = .ok (data[n]'(by omega)) := by
      rw [peek, if_pos (by omega), h n (by omega), hd]
    rw [List.take_add_one, hd]
    simp [hp, bind, Except.bind, pure, Except.pure]

theorem compose_written {s : State} {data : List Byte} (opc : BitVec opcBits) (aid : BitVec aidBits) (hl : s.cur.toNat = data.length)
    (h : ∀ a, a < data.length → bufRead s.buf a = data[a]?) :
    compose opc aid s = .ok { ide := true, id := identifier opc aid, dlc := s.cur, data := data } := by
  rw [compose, mapM_peek (data := data) s.cur.toNat (le_refl _) (by omega) (by rw [hl]; exact h)]
  simp [hl]

/-- A command whose fields fit the frame always succeeds, from every state, with the same frame. -/
theorem command_next (k : Kind) (aid : BitVec aidBits) (fields : List (List Byte)) (s : State)
    (h : fields.flatten.length ≤ 8) :
    command k aid fields s = .next ((((s.setBuf (writeBytes s.buf 0 fields.flatten)).setCur
      (BitVec.ofNat 4 fields.flatten.length)).emitTx
        { ide := true, id := identifier (opcodeOf s.params k) aid, dlc := BitVec.ofNat 4 fields.flatten.length,
          data := fields.flatten }).respond .ok) := by
  have h0 : (0 : BitVec 4).toNat = 0 := rfl
  have hc : (BitVec.ofNat 4 fields.flatten.length).toNat = fields.flatten.length := by
    rw [BitVec.toNat_ofNat]; omega
  rw [command, appendAll_fits _ _ (by simp only [State.setCur_cur, h0]; omega)]
  have hz : (0 : BitVec 4) + BitVec.ofNat 4 fields.flatten.length = BitVec.ofNat 4 fields.flatten.length := by simp
  simp only [State.setCur_buf, State.setCur_cur, h0, hz]
  rw [compose_written (data := fields.flatten) _ _ (by simp only [State.setCur_cur, hc])]
  · rfl
  · intro a ha
    simp only [State.setCur_buf, State.setBuf_buf]
    rw [bufRead_writeBytes, if_pos (by omega), Nat.sub_zero]

end Sys2Proof.Machine
end

