-- ==== Sys2Proof/Laws/Exec.lean ====
section
/-! SUPPORT. Everything an operation, and a step, can do, said once. -/

namespace Sys2Proof.Machine

theorem exec_duty (aid : BitVec aidBits) (val : FcNum) (s : State) :
    exec (.duty aid val) s = command .duty aid [quantField s.params val s.params.scaleDuty] s := rfl

theorem exec_current (aid : BitVec aidBits) (val : FcNum) (s : State) :
    exec (.current aid val) s = command .current aid [quantField s.params val s.params.scaleCurrent] s := rfl

theorem exec_currentBrake (aid : BitVec aidBits) (val : FcNum) (s : State) :
    exec (.currentBrake aid val) s = command .currentBrake aid [quantField s.params val s.params.scaleBrake] s := rfl

theorem exec_velocity (aid : BitVec aidBits) (val : FcNum) (s : State) :
    exec (.velocity aid val) s = command .velocity aid [quantField s.params val s.params.scaleVelocity] s := rfl

theorem exec_position (aid : BitVec aidBits) (val : FcNum) (s : State) :
    exec (.position aid val) s = command .position aid [quantField s.params val s.params.scalePosition] s := rfl

theorem exec_setOrigin_legal {mode : BitVec 8} (h : legalMode mode = true) (aid : BitVec aidBits) (s : State) :
    exec (.setOrigin aid mode) s = command .setOrigin aid [beBytes (wrap 8 (mode.toNat : Int))] s := if_pos h

theorem exec_setOrigin_illegal {mode : BitVec 8} (h : ¬legalMode mode = true) (aid : BitVec aidBits) (s : State) :
    exec (.setOrigin aid mode) s = .next (s.respond (.fault (.invalidParameter mode))) := if_neg h

theorem exec_positionProfile (aid : BitVec aidBits) (val : FcNum) (vlim alim : Int) (s : State) :
    exec (.positionProfile aid val vlim alim) s = command .positionProfile aid
      [quantField s.params val s.params.scalePosition, beBytes (wrap 16 vlim), beBytes (wrap 16 alim)] s := rfl

/-- The next states of the operations, each with the instruction that leads to it. -/
inductive Effect (i : Instr) (s : State) : State → Prop where
  /-- `CLR`. -/
  | cleared (h : i = .clr) : Effect i s ((s.setCur 0).respond .ok)
  /-- An append that fits. -/
  | appended (bs : List Byte) (hb : bs ≠ []) (hw : writesBuffer i = true) (hc : commandOf i = none)
      (h : s.cur.toNat + bs.length ≤ 8) :
      Effect i s (((s.setBuf (writeBytes s.buf s.cur.toNat bs)).setCur (s.cur + BitVec.ofNat 4 bs.length)).respond .ok)
  /-- A response and nothing else: an integer, a discard or a fault. -/
  | answered (r : Response) (hr : r ≠ .ok) : Effect i s (s.respond r)
  /-- A command's frame. -/
  | sent (k : Kind) (aid : BitVec aidBits) (data : List Byte) (hi : commandOf i = some (k, aid)) (hl : data.length = payloadLength k) :
      Effect i s ((((s.setBuf (writeBytes s.buf 0 data)).setCur (BitVec.ofNat 4 data.length)).emitTx
        { ide := true, id := identifier (opcodeOf s.params k) aid, dlc := BitVec.ofNat 4 data.length,
          data := data }).respond .ok)
  /-- A decode's sample. -/
  | sampled (expId : BitVec aidBits) (f : Frame) (rxd : FbPayload) (hi : i = .decodeFeedback expId f)
      (ha : accept f expId = true) (hd : f.data = rxd.1) :
      Effect i s ((s.emitTlm (scaleSample s.params (unpack rxd))).respond .ok)

theorem payloadLength_le (k : Kind) : payloadLength k ≤ 8 := by cases k <;> decide

/-- A command with a payload of its kind's length has the effect of sending it. -/
theorem command_effect {i : Instr} {k : Kind} {aid : BitVec aidBits} {fields : List (List Byte)} {s : State}
    (he : exec i s = command k aid fields s) (hi : commandOf i = some (k, aid)) (hl : fields.flatten.length = payloadLength k) :
    ∃ t, exec i s = .next t ∧ Effect i s t :=
  ⟨_, he.trans (command_next k aid fields s (hl ▸ payloadLength_le k)), .sent k aid fields.flatten hi hl⟩

theorem appendOp_effect {i : Instr} (hw : writesBuffer i = true) (hc : commandOf i = none) {bs : List Byte}
    (hb : bs ≠ []) (s : State) : ∃ t, appendOp bs s = .next t ∧ Effect i s t := by
  rcases appendOp_cases bs s with ⟨h, e⟩ | ⟨_, e⟩
  · exact ⟨_, e, .appended bs hb hw hc h⟩
  · exact ⟨_, e, .answered _ (by simp)⟩

theorem readOp_effect (i : Instr) (r : Except FaultCause Int) (s : State) :
    ∃ t, readOp r s = .next t ∧ Effect i s t := by
  rcases readOp_cases r s with ⟨_, _, e⟩ | ⟨_, _, e⟩ <;> exact ⟨_, e, .answered _ (by simp)⟩

/-- Everything an operation can do: it has an effect, or it is a decode of a record that no port carries. -/
theorem exec_cases (i : Instr) (s : State) :
    (∃ t, exec i s = .next t ∧ Effect i s t) ∨
      ∃ expId f, i = .decodeFeedback expId f ∧ accept f expId = true ∧ f.data.length ≠ fbDlc ∧
        exec i s = .refused .malformedOperand := by
  cases i with
  | duty aid val => exact .inl (command_effect (exec_duty aid val s) rfl rfl)
  | current aid val => exact .inl (command_effect (exec_current aid val s) rfl rfl)
  | currentBrake aid val => exact .inl (command_effect (exec_currentBrake aid val s) rfl rfl)
  | velocity aid val => exact .inl (command_effect (exec_velocity aid val s) rfl rfl)
  | position aid val => exact .inl (command_effect (exec_position aid val s) rfl rfl)
  | setOrigin aid mode =>
    left
    by_cases hm : legalMode mode = true
    · exact command_effect (exec_setOrigin_legal hm aid s) rfl rfl
    · exact ⟨_, exec_setOrigin_illegal hm aid s, .answered _ (by simp)⟩
  | positionProfile aid val vlim alim =>
    exact .inl (command_effect (exec_positionProfile aid val vlim alim s) rfl rfl)
  | decodeFeedback expId f =>
    rcases execDecodeFeedback_cases expId f s with ⟨ha, rxd, hd, e⟩ | ⟨ha, hl, e⟩ | ⟨_, e⟩
    · exact .inl ⟨_, e, .sampled expId f rxd rfl ha hd⟩
    · exact .inr ⟨expId, f, rfl, ha, hl, e⟩
    · exact .inl ⟨_, e, .answered _ (by simp)⟩
  | clr => exact .inl ⟨_, rfl, .cleared rfl⟩
  | appendI32Be value => exact .inl (appendOp_effect rfl rfl (by simp [beBytes_32]) s)
  | appendI16Be value => exact .inl (appendOp_effect rfl rfl (by simp [beBytes_16]) s)
  | appendU8 value => exact .inl (appendOp_effect rfl rfl (by simp [beBytes_8]) s)
  | readI16Be bytes offset => exact .inl (readOp_effect _ _ s)
  | readI8 bytes offset => exact .inl (readOp_effect _ _ s)
  | readU8 bytes offset => exact .inl (readOp_effect _ _ s)

/-- The effect behind a next state. -/
theorem exec_effect {i : Instr} {s t : State} (h : exec i s = .next t) : Effect i s t := by
  rcases exec_cases i s with ⟨u, e, hu⟩ | ⟨_, _, _, _, _, e⟩
  · rw [e] at h; cases h; exact hu
  · rw [e] at h; cases h

/-- Everything a step that answers a next state can do. -/
theorem step_cases {s t : State} (h : step s = .next t) :
    (s.inputs = [] ∧ t = s) ∨
      (∃ rest, s.inputs = .reset :: rest ∧ t = resetEvent (s.setInputs rest)) ∨
      (∃ r rest code, s.inputs = .op r :: rest ∧ decodeRequest r = .error (.invalidKind code) ∧
        t = (s.setInputs rest).respond (.fault (.invalidKind code))) ∨
      ∃ r rest i, s.inputs = .op r :: rest ∧ decodeRequest r = .ok i ∧ i.wellFormed s.params = true ∧
        exec i (s.setInputs rest) = .next t := by
  unfold step fetch at h
  cases hin : s.inputs with
  | nil => simp only [hin] at h; cases h; exact .inl ⟨rfl, rfl⟩
  | cons x rest =>
    simp only [hin] at h
    cases x with
    | reset => cases h; exact .inr (.inl ⟨rest, rfl, rfl⟩)
    | op r =>
      simp only [fetchRequest] at h
      cases hd : decodeRequest r with
      | ok i =>
        simp only [hd] at h
        by_cases hw : i.wellFormed s.params = true
        · rw [if_pos (by simpa using hw)] at h
          exact .inr (.inr (.inr ⟨r, rest, i, rfl, hd, hw, h⟩))
        · rw [if_neg (by simpa using hw)] at h
          cases h
      | error e =>
        simp only [hd] at h
        cases e with
        | invalidKind code => cases h; exact .inr (.inr (.inl ⟨r, rest, code, rfl, hd, rfl⟩))
        | nonFinite => cases h

end Sys2Proof.Machine
end

