-- ==== Sys2Proof/Laws/PerInstr.lean ====
section
/-! SUPPORT. Statements about every instruction as syntax, one lemma per constructor. -/

namespace Sys2Proof.Laws

/-- The operand record that presents an operation selects exactly that operation (41_command_encoder R121, 10_state R32). -/
def RequestRoundTrip.Statement (i : Instr) : Prop := decodeRequest (encodeRequest i) = .ok i

theorem RequestRoundTrip.duty (aid : BitVec aidBits) (val : FcNum) : RequestRoundTrip.Statement (.duty aid val) := rfl
theorem RequestRoundTrip.current (aid : BitVec aidBits) (val : FcNum) : RequestRoundTrip.Statement (.current aid val) := rfl
theorem RequestRoundTrip.currentBrake (aid : BitVec aidBits) (val : FcNum) :
    RequestRoundTrip.Statement (.currentBrake aid val) := rfl
theorem RequestRoundTrip.velocity (aid : BitVec aidBits) (val : FcNum) : RequestRoundTrip.Statement (.velocity aid val) := rfl
theorem RequestRoundTrip.position (aid : BitVec aidBits) (val : FcNum) : RequestRoundTrip.Statement (.position aid val) := rfl
theorem RequestRoundTrip.setOrigin (aid mode : BitVec 8) : RequestRoundTrip.Statement (.setOrigin aid mode) := rfl
theorem RequestRoundTrip.positionProfile (aid : BitVec aidBits) (val : FcNum) (vlim alim : Int) :
    RequestRoundTrip.Statement (.positionProfile aid val vlim alim) := rfl
theorem RequestRoundTrip.decodeFeedback (expId : BitVec aidBits) (frame : Frame) :
    RequestRoundTrip.Statement (.decodeFeedback expId frame) := rfl
theorem RequestRoundTrip.clr : RequestRoundTrip.Statement .clr := rfl
theorem RequestRoundTrip.appendI32Be (value : Int) : RequestRoundTrip.Statement (.appendI32Be value) := rfl
theorem RequestRoundTrip.appendI16Be (value : Int) : RequestRoundTrip.Statement (.appendI16Be value) := rfl
theorem RequestRoundTrip.appendU8 (value : Int) : RequestRoundTrip.Statement (.appendU8 value) := rfl
theorem RequestRoundTrip.readI16Be (bytes : List Byte) (offset : Nat) :
    RequestRoundTrip.Statement (.readI16Be bytes offset) := rfl
theorem RequestRoundTrip.readI8 (bytes : List Byte) (offset : Nat) :
    RequestRoundTrip.Statement (.readI8 bytes offset) := rfl
theorem RequestRoundTrip.readU8 (bytes : List Byte) (offset : Nat) :
    RequestRoundTrip.Statement (.readU8 bytes offset) := rfl

end Sys2Proof.Laws
end

