-- ==== Sys2Proof/Laws/Spec.lean ====
section
/-! SUPPORT. The shared operations in the terms of Safety.lean: what an append, a command, a read and a decode leave, and
the arithmetic of the bytes behind them. -/

namespace Sys2Proof.Machine

/-! ### Bytes and fields -/

theorem beUint_cons (b : Byte) (bs : List Byte) : beUint (b :: bs) = b.toNat * 256 ^ bs.length + beUint bs := by
  have key : ∀ (bs : List Byte) (a : Nat),
      bs.foldl (fun acc b => acc * 256 + b.toNat) a = a * 256 ^ bs.length + beUint bs := by
    intro bs
    induction bs with
    | nil => intro a; simp [beUint]
    | cons x xs ih =>
      intro a
      have h : beUint (x :: xs) = xs.foldl (fun acc b => acc * 256 + b.toNat) (0 * 256 + x.toNat) := rfl
      rw [List.foldl_cons, ih, h, ih, List.length_cons]
      ring
  have h : beUint (b :: bs) = bs.foldl (fun acc b => acc * 256 + b.toNat) (0 * 256 + b.toNat) := rfl
  rw [h, key]
  ring

theorem i16Of_eq (hi lo : Byte) : sext (BitVec.ofNat 16 (beUint [hi, lo])) = i16Of hi lo := by
  have h1 := hi.isLt
  have h2 := lo.isLt
  simp only [sext, beUint, List.foldl, i16Of, BitVec.toInt_eq_toNat_cond, BitVec.toNat_ofNat]
  rw [Nat.mod_eq_of_lt (by omega)]
  split <;> split <;> omega

theorem i8Of_eq (b : Byte) : sext (BitVec.ofNat 8 (beUint [b])) = i8Of b := by
  have h := b.isLt
  simp only [sext, beUint, List.foldl, i8Of, BitVec.toInt_eq_toNat_cond, BitVec.toNat_ofNat]
  rw [Nat.mod_eq_of_lt (by omega)]
  split <;> split <;> omega

theorem u8Of_eq (b : Byte) : zext (BitVec.ofNat 8 (beUint [b])) = b.toNat := by simp [zext, beUint]

/-- The composed identifier as a number: the two fields do not overlap (30_encoding R61). -/
theorem identifier_toNat (opc : BitVec opcBits) (aid : BitVec aidBits) : (identifier opc aid).toNat = opc.toNat * 256 + aid.toNat := by
  have h1 : opc.toNat < 256 := opc.isLt
  have h2 : aid.toNat < 256 := aid.isLt
  simp only [identifier, opcShift, idBits, BitVec.toNat_or, BitVec.toNat_shiftLeft, BitVec.toNat_setWidth]
  rw [Nat.mod_eq_of_lt (by omega), Nat.mod_eq_of_lt (by omega), Nat.shiftLeft_eq, Nat.mod_eq_of_lt (by omega),
    ← Nat.shiftLeft_eq opc.toNat 8, ← Nat.shiftLeft_add_eq_or_of_lt (by omega), Nat.shiftLeft_eq]

/-- The payload of a frame of 8 bytes to its five integers. -/
theorem unpack_eq (b0 b1 b2 b3 b4 b5 b6 b7 : Byte) : unpack ⟨[b0, b1, b2, b3, b4, b5, b6, b7], rfl⟩ =
    { pos := i16Of b0 b1, vel := i16Of b2 b3, cur := i16Of b4 b5, temp := i8Of b6, err := b7.toNat } := by
  rw [unpack_bytes, i16Of_eq, i16Of_eq, i16Of_eq, i8Of_eq, u8Of_eq]

/-! ### Operations -/

/-- Answering is all that `respond` does. -/
theorem answered_respond (s : State) (r : Response) : answered s (s.respond r) r :=
  ⟨⟨rfl, fun _ => rfl⟩, ⟨rfl, rfl⟩, rfl, rfl, rfl⟩

/-- The bytes a write leaves. -/
theorem written_of_buf {s t : State} {a : Nat} {bs : List Byte} (h : t.buf = writeBytes s.buf a bs) :
    written s t a bs := by
  constructor
  · intro k hk
    rw [h, bufRead_writeBytes, if_pos (by omega)]
    congr 1
    omega
  · intro c hc
    rw [h, bufRead_writeBytes, if_neg (by omega)]

theorem appendOp_appended {s : State} {bs : List Byte} (h : s.cur.toNat + bs.length ≤ 8) :
    ∃ t, appendOp bs s = .next t ∧ appended s t bs := by
  rcases appendOp_cases bs s with ⟨_, e⟩ | ⟨h', _⟩
  · exact ⟨_, e, written_of_buf rfl, cur_advance h, ⟨rfl, rfl⟩, rfl, rfl, rfl⟩
  · omega

theorem appendOp_answered {s : State} {bs : List Byte} (h : 8 < s.cur.toNat + bs.length) :
    ∃ t, appendOp bs s = .next t ∧ answered s t (.fault (.bufferOverflow s.cur)) := by
  rcases appendOp_cases bs s with ⟨h', _⟩ | ⟨_, e⟩
  · omega
  · exact ⟨_, e, answered_respond _ _⟩

/-- A command whose fields fit sends them, from every state. -/
theorem command_sent (k : Kind) (aid : BitVec aidBits) (fields : List (List Byte)) (s : State)
    (h : fields.flatten.length ≤ 8) :
    ∃ t, command k aid fields s = .next t ∧ sent s t (opcodeOf s.params k) aid fields.flatten :=
  ⟨_, command_next k aid fields s h, rfl, rfl, written_of_buf rfl, rfl, rfl, rfl, rfl⟩

theorem exec_decodeFeedback_accepted {s : State} {f : Frame} {expId : BitVec aidBits} {rxd : FbPayload}
    (ha : accept f expId = true) (hd : f.data = rxd.1) :
    exec (.decodeFeedback expId f) s = .next ((s.emitTlm (scaleSample s.params (unpack rxd))).respond .ok) := by
  rw [exec, execDecodeFeedback, if_pos ha, hd, fbPayload_val]

theorem exec_decodeFeedback_discarded {s : State} {f : Frame} {expId : BitVec aidBits} (ha : ¬accept f expId = true) :
    exec (.decodeFeedback expId f) s = .next (s.respond .discard) := by
  rw [exec, execDecodeFeedback, if_neg ha, discardFrame]

end Sys2Proof.Machine
end

