-- ==== Sys2Proof/Tests/Slice0.lean ====
section
/-! SUPPORT. Tests: expected results are the spec's worked examples and vectors (95_test_vectors, named in each comment)
or written out by hand from its encodings; and a witness for the hypotheses of every obligation that has some. -/

namespace Sys2Proof.Tests

open Machine

/-! ### Helpers -/

/-- A state with a cursor and a buffer, the rest as at reset. -/
def stAt (cur : BitVec 4) (buf : Memory) : State := { State.reset with cur := cur, buf := buf }

/-- A state in which the host presents a list. -/
def stIn (l : List Input) : State := { State.reset with inputs := l }

/-- The next state of an outcome, if it is one. -/
def nextOf (r : Result) : Option State :=
  match r with
  | .next t => some t
  | .fault _ => none
  | .refused _ => none

/-- The frames, the samples and the responses an instruction leaves. -/
def txOf (i : Instr) (s : State) : Option (List Frame) := (nextOf (exec i s)).map (·.tx)
def tlmOf (i : Instr) (s : State) : Option (List Sample) := (nextOf (exec i s)).map (·.tlm)
def respOf (i : Instr) (s : State) : Option (List Response) := (nextOf (exec i s)).map (·.responses)
def bufOf (i : Instr) (s : State) : Option (Memory × BitVec 4) := (nextOf (exec i s)).map fun t => (t.buf, t.cur)

/-- The payload B of the vectors V28. -/
def vecB : List Byte := [0x00, 0x0A, 0xFF, 0x38, 0x00, 0x64, 0x19, 0x00]

/-- The payload C of the vectors V28. -/
def vecC : List Byte := [0x80, 0x00, 0x7F, 0xFF, 0xFF, 0xFF, 0x80, 0xFF]

/-- An inbound frame for actuator 0x68. -/
def fb (data : List Byte) : Frame := { ide := true, id := 0x68, dlc := 8, data := data }

/-! ### The structural parameters (the table of 00_scope R8) -/

theorem test_structural : [idBits, aidBits, opcBits, opcShift, maxDlc, fbDlc] = [29, 8, 8, 8, 8, 8] := by decide

/-! ### WellFormed refuses an ill-formed term for each check -/

theorem test_wf_bytes : (Instr.readI16Be (vecB ++ [0]) 0).wellFormed defaultParams = false := by decide
theorem test_wf_frame : (Instr.decodeFeedback 0x68 (fb [1, 2, 3])).wellFormed defaultParams = false := by decide
theorem test_wf_frame_long : (Instr.decodeFeedback 0x68 { fb vecB with dlc := 15 }).wellFormed defaultParams = true := by
  decide
theorem test_wf_float : (Instr.duty 0x68 (mkRat 1 10)).wellFormed { defaultParams with floatFmt := .binary32 } = false := by
  decide
theorem test_wf_float_ok : (Instr.duty 0x68 (mkRat 1 2)).wellFormed { defaultParams with floatFmt := .binary32 } = true := by
  decide

/-! ### Decode: words written out bit by bit from 30_encoding R61 and R64 to R66, opcode defaults of 00_scope R11 -/

theorem test_decode_duty : decodeFrame defaultParams
    { ide := true, id := 0b0000000000000_00000000_01101000#29, dlc := 0b0100, data := [0x00, 0x00, 0xC3, 0x50] } =
      .ok (.duty 0x68 (mkRat 1 2)) := by decide
theorem test_decode_current : decodeFrame defaultParams
    { ide := true, id := 0b0000000000000_00000001_00000001#29, dlc := 0b0100, data := [0x00, 0x00, 0x05, 0xDC] } =
      .ok (.current 1 (mkRat 3 2)) := by decide
theorem test_decode_currentBrake : decodeFrame defaultParams
    { ide := true, id := 0b0000000000000_00000010_00000001#29, dlc := 0b0100, data := [0x00, 0x00, 0xEA, 0x60] } =
      .ok (.currentBrake 1 60) := by decide
theorem test_decode_velocity : decodeFrame defaultParams
    { ide := true, id := 0b0000000000000_00000011_00000001#29, dlc := 0b0100, data := [0xFF, 0xFF, 0xF8, 0x30] } =
      .ok (.velocity 1 (-2000)) := by decide
theorem test_decode_position : decodeFrame defaultParams
    { ide := true, id := 0b0000000000000_00000100_01101000#29, dlc := 0b0100, data := [0xFF, 0xFE, 0x1F, 0x88] } =
      .ok (.position 0x68 (mkRat (-123) 10)) := by decide
theorem test_decode_setOrigin : decodeFrame defaultParams
    { ide := true, id := 0b0000000000000_00000101_01101000#29, dlc := 0b0001, data := [0b00000001] } =
      .ok (.setOrigin 0x68 1) := by decide
theorem test_decode_positionProfile : decodeFrame defaultParams
    { ide := true, id := 0b0000000000000_00000110_00000001#29, dlc := 0b1000,
      data := [0x00, 0x0D, 0xBB, 0xA0, 0x13, 0x88, 0x75, 0x30] } = .ok (.positionProfile 1 90 5000 30000) := by decide
theorem test_decode_badMode : decodeFrame defaultParams
    { ide := true, id := 0b0000000000000_00000101_01101000#29, dlc := 0b0001, data := [3] } = .error (.badMode 3) := by
  decide
theorem test_decode_unknown : decodeFrame defaultParams
    { ide := true, id := 0b0000000000000_00000111_01101000#29, dlc := 0b0001, data := [3] } =
      .error (.unknownOpcode 7) := by decide
theorem test_decode_upper : decodeFrame defaultParams
    { ide := true, id := 0b1000000000000_00000000_01101000#29, dlc := 0b0100, data := [0, 0, 0, 0] } =
      .error .upperBitsSet := by decide
theorem test_decode_notExtended : decodeFrame defaultParams
    { ide := false, id := 0x68, dlc := 0b0100, data := [0, 0, 0, 0] } = .error .notExtended := by decide
theorem test_decodeBytes_rest : decodeBytes defaultParams [0x68, 0x05, 0x00, 0x00, 0x02, 0xAA] =
    .ok (.setOrigin 0x68 2, [0xAA]) := by decide
theorem test_decodeBytes_truncated : decodeBytes defaultParams [0x68, 0x00, 0x00, 0x00, 0x02] = .error .truncated := by
  decide

/-! ### Decode of operand records (10_state R28, R29, R32; kind codes of 30_encoding R70) -/

theorem test_record_position : decodeRequest (.cmd 0b100 0x68 (.exact (mkRat (-123) 10)) 9 9 9) =
    .ok (.position 0x68 (mkRat (-123) 10)) := by decide
theorem test_record_seven : decodeRequest (.cmd 0b111 0x68 (.exact 0) 0 0 0) = .error (.invalidKind 7) := by decide
theorem test_record_setOrigin_ignores_val : decodeRequest (.cmd 0b101 0x68 (.binary32 0x7FC00000) 3 9 9) =
    .ok (.setOrigin 0x68 3) := by decide
theorem test_record_rx : decodeRequest (.rx 0x68 (fb vecB)) = .ok (.decodeFeedback 0x68 (fb vecB)) := by decide
theorem test_record_clr : decodeRequest (.prim .clr 5 [] 0) = .ok .clr := by decide
theorem test_record_appendI32Be : decodeRequest (.prim .appendI32Be 5 [] 0) = .ok (.appendI32Be 5) := by decide
theorem test_record_appendI16Be : decodeRequest (.prim .appendI16Be 5 [] 0) = .ok (.appendI16Be 5) := by decide
theorem test_record_appendU8 : decodeRequest (.prim .appendU8 5 [] 0) = .ok (.appendU8 5) := by decide
theorem test_record_readI16Be : decodeRequest (.prim .readI16Be 5 [1, 2] 3) = .ok (.readI16Be [1, 2] 3) := by decide
theorem test_record_readI8 : decodeRequest (.prim .readI8 5 [1, 2] 3) = .ok (.readI8 [1, 2] 3) := by decide
theorem test_record_readU8 : decodeRequest (.prim .readU8 5 [1, 2] 3) = .ok (.readU8 [1, 2] 3) := by decide

/-! ### FC-PACK (95_test_vectors V1 to V28) -/

/-- V27, and the buffer of 40_codec_primitives R91's example. -/
theorem test_clr : bufOf .clr (stAt 8 [(0, 0), (1, 7)]) = some ([(0, 0), (1, 7)], 0) := by decide
/-- V11. -/
theorem test_appendI32 : bufOf (.appendI32Be 305419896) (stAt 4 [(0, 9)]) =
    some ([(0, 9), (4, 0x12), (5, 0x34), (6, 0x56), (7, 0x78)], 8) := by decide
/-- V9 and V12. -/
theorem test_appendI32_wrap_overflow : bufOf (.appendI32Be (-2147483649)) (stAt 0 []) =
      some ([(0, 0x7F), (1, 0xFF), (2, 0xFF), (3, 0xFF)], 4) ∧
    bufOf (.appendI32Be 7) (stAt 5 []) = some ([], 5) ∧
    respOf (.appendI32Be 7) (stAt 5 []) = some [.fault (.bufferOverflow 5)] := by decide
/-- V21. -/
theorem test_appendI16_odd : bufOf (.appendI16Be (-200)) (stAt 3 [(4, 1)]) = some ([(3, 0xFF), (4, 0x38)], 5) := by decide
/-- V20 and V23. -/
theorem test_appendI16_wrap_overflow : bufOf (.appendI16Be 70000) (stAt 0 []) = some ([(0, 0x11), (1, 0x70)], 2) ∧
    respOf (.appendI16Be 1) (stAt 7 []) = some [.fault (.bufferOverflow 7)] := by decide
/-- V25 and V26. -/
theorem test_appendU8 : bufOf (.appendU8 256) (stAt 0 []) = some ([(0, 0)], 1) ∧
    respOf (.appendU8 1) (stAt 8 []) = some [.fault (.bufferOverflow 8)] := by decide
/-- V28b, V28d. -/
theorem test_readI16 : respOf (.readI16Be vecB 2) State.reset = some [.value (-200)] ∧
    respOf (.readI16Be vecB 1) State.reset = some [.value 2815] := by decide
/-- V28f, V28p. -/
theorem test_readI16_range : respOf (.readI16Be vecB 7) State.reset = some [.fault (.readOutOfRange 7)] ∧
    respOf (.readI16Be [] 0) State.reset = some [.fault (.readOutOfRange 0)] := by decide
/-- V28k, V28l. -/
theorem test_readI8 : respOf (.readI8 vecC 6) State.reset = some [.value (-128)] ∧
    respOf (.readI8 vecC 7) State.reset = some [.value (-1)] := by decide
/-- V28m, V28o. -/
theorem test_readU8 : respOf (.readU8 vecC 7) State.reset = some [.value 255] ∧
    respOf (.readU8 vecB 8) State.reset = some [.fault (.readOutOfRange 8)] := by decide

/-! ### The quantiser (95_test_vectors Q) and the boundary (95_test_vectors S2) -/

/-- Q2, Q4, Q7, Q14. -/
theorem test_quant : quant defaultParams (mkRat (-1) 4) 100000 = 0xFFFF9E58 ∧
    quant defaultParams (mkRat (-9) 1000000) 100000 = 0 ∧ quant defaultParams 21475 100000 = 0x80003FE0 ∧
    quant defaultParams (mkRat (-7) 2) 1 = 0xFFFFFFFD := by decide
/-- Q17 and Q17'. -/
theorem test_quant_rounded : quant defaultParams (mkRat 5188146770730811 (2 ^ 59)) 1000 = 8 ∧
    quant { defaultParams with mulMode := .rounded, floatFmt := .binary64 } (mkRat 5188146770730811 (2 ^ 59)) 1000 = 9 := by
  decide
/-- S2: the binary64 and binary32 numbers nearest -12.3. -/
theorem test_boundary : hostNum (.binary64 0xC02899999999999A) = some (mkRat (-3462142213541069) (2 ^ 48)) ∧
    hostNum (.binary32 0xC144CCCD) = some (mkRat (-12897485) (2 ^ 20)) := by decide
/-- 40_codec_primitives R102: negative zero is the real 0; an infinity and a not-a-number are refused. -/
theorem test_boundary_nonFinite : hostNum (.binary32 0x80000000) = some 0 ∧ hostNum (.binary32 0xFF800000) = none ∧
    hostNum (.binary64 0x7FF8000000000000) = none := by decide

/-! ### FC-ENC (95_test_vectors V30 to V36) and FC-ID (V50 to V54) -/

/-- V30a. -/
theorem test_duty : txOf (.duty 0x68 (mkRat 1 2)) State.reset =
    some [{ ide := true, id := 0x00000068, dlc := 4, data := [0x00, 0x00, 0xC3, 0x50] }] := by decide
/-- V30d, over a buffer that holds a longer payload. -/
theorem test_duty_wrap : txOf (.duty 1 21475) (stAt 8 [(0, 1), (4, 5)]) =
    some [{ ide := true, id := 0x00000001, dlc := 4, data := [0x80, 0x00, 0x3F, 0xE0] }] := by decide
/-- V30f. -/
theorem test_current : txOf (.current 1 (mkRat (-5) 2)) State.reset =
    some [{ ide := true, id := 0x00000101, dlc := 4, data := [0xFF, 0xFF, 0xF6, 0x3C] }] := by decide
/-- V30g. -/
theorem test_currentBrake : txOf (.currentBrake 1 60) State.reset =
    some [{ ide := true, id := 0x00000201, dlc := 4, data := [0x00, 0x00, 0xEA, 0x60] }] := by decide
/-- V30k. -/
theorem test_velocity : txOf (.velocity 1 (mkRat (-7) 2)) State.reset =
    some [{ ide := true, id := 0x00000301, dlc := 4, data := [0xFF, 0xFF, 0xFF, 0xFD] }] := by decide
/-- V30m. -/
theorem test_position : txOf (.position 0x68 (mkRat (-123) 10)) State.reset =
    some [{ ide := true, id := 0x00000468, dlc := 4, data := [0xFF, 0xFE, 0x1F, 0x88] }] := by decide
/-- V30o. -/
theorem test_position_wrap : txOf (.position 1 214749) State.reset =
    some [{ ide := true, id := 0x00000401, dlc := 4, data := [0x80, 0x00, 0x18, 0xD0] }] := by decide
/-- V30r. -/
theorem test_setOrigin : txOf (.setOrigin 0x68 2) State.reset =
    some [{ ide := true, id := 0x00000568, dlc := 1, data := [0x02] }] := by decide
/-- V31. -/
theorem test_setOrigin_illegal : txOf (.setOrigin 0x68 3) (stAt 2 [(0, 7)]) = some [] ∧
    bufOf (.setOrigin 0x68 3) (stAt 2 [(0, 7)]) = some ([(0, 7)], 2) ∧
    respOf (.setOrigin 0x68 3) (stAt 2 [(0, 7)]) = some [.fault (.invalidParameter 3)] := by decide
/-- V34, with the end state of program P3 step 3. -/
theorem test_positionProfile : txOf (.positionProfile 0x68 (mkRat (-123) 10) (-1) 40000) (stAt 1 [(0, 1)]) =
      some [{ ide := true, id := 0x00000668, dlc := 8, data := [0xFF, 0xFE, 0x1F, 0x88, 0xFF, 0xFF, 0x9C, 0x40] }] ∧
    (bufOf (.positionProfile 0x68 (mkRat (-123) 10) (-1) 40000) (stAt 1 [(0, 1)])).map Prod.snd = some 8 := by decide
/-- V52, V54. -/
theorem test_identifier : identifier 0xFF 0xFF = 0x0000FFFF ∧ identifier 0x7E 0x68 = 0x00007E68 := by decide

/-! ### FC-DEC (95_test_vectors V37 to V48) -/

/-- V37a. -/
theorem test_decodeFeedback : tlmOf (.decodeFeedback 0x68 (fb vecB)) State.reset =
    some [{ posRaw := 10, velRaw := -200, curRaw := 100, temp := 25, err := 0, position := 1, velocity := -2000,
            current := 1 }] := by decide
/-- V37g. -/
theorem test_decodeFeedback_signs :
    tlmOf (.decodeFeedback 0x68 (fb [0x12, 0x34, 0x56, 0x78, 0x9A, 0xBC, 0xDE, 0xF0])) State.reset =
    some [{ posRaw := 4660, velRaw := 22136, curRaw := -25924, temp := -34, err := 240, position := 466,
            velocity := 221360, current := mkRat (-25924) 100 }] := by decide
/-- V40, V42, V44, V46: discarded. -/
theorem test_decodeFeedback_discard :
    respOf (.decodeFeedback 0x68 { fb vecB with ide := false }) State.reset = some [.discard] ∧
    respOf (.decodeFeedback 0x68 { fb vecB with dlc := 7, data := vecB.take 7 }) State.reset = some [.discard] ∧
    respOf (.decodeFeedback 0x68 { fb vecB with id := 0x6800 }) State.reset = some [.discard] ∧
    respOf (.decodeFeedback 0x68 { fb vecB with dlc := 9 }) State.reset = some [.discard] := by decide
/-- V45: the upper identifier bits are ignored. -/
theorem test_decodeFeedback_upper :
    respOf (.decodeFeedback 0x68 { fb vecB with id := 0x1FFFFF68 }) State.reset = some [.ok] := by decide

/-! ### Steps -/

/-- One step from reset runs the command of a table word (here POSITION to 0x68 with a zero operand word). -/
theorem test_step_word : (nextOf (step (State.reset.withFetchWord 32 0x468))).map (·.tx) =
    some [{ ide := true, id := 0x468, dlc := 4, data := [0, 0, 0, 0] }] := by decide
/-- V36. -/
theorem test_step_seven : (nextOf (step (stIn [.op (.cmd 7 1 (.exact 0) 9 0 0)]))).map (·.responses) =
    some [.fault (.invalidKind 7)] := by decide
/-- The reset event (70_reset R201). -/
theorem test_step_reset : (nextOf (step { stAt 5 [(0, 1)] with inputs := [.reset] })).map (fun t => (t.buf, t.cur)) =
    some ([], 0) := by decide
/-- Program P1's stop step (NEUTRAL DUTY) as the control cycle presents it. -/
theorem test_cycle_stop : (tick defaultPolicy { inbound := none, cancel := false, transmitError := false }
    (.stopping 0x68 (.duty (mkRat 1 2)))).inputs = [present (.duty 0x68 0)] := by decide
/-- Program P5: a position cycle is stopped by its own command, never by zero. -/
theorem test_cycle_stop_position : (tick defaultPolicy { inbound := none, cancel := false, transmitError := false }
    (.stopping 1 (.position 90))).inputs = [present (.position 1 90)] := by decide
/-- A stopping tick reports a failed write exactly when it transmits. -/
theorem test_cycle_stop_report : (tick .skip { inbound := none, cancel := false, transmitError := true }
      (.stopping 1 (.position 90))).reported = false ∧
    (tick .repeatLast { inbound := none, cancel := false, transmitError := true }
      (.stopping 1 (.position 90))).reported = true ∧
    (tick .skip { inbound := none, cancel := false, transmitError := true }
      (.stopping 1 (.velocity 90))).reported = true := by decide
theorem test_cycle_origin : sendOrigin 0x68 1 true = { inputs := [present (.setOrigin 0x68 1)], reported := true } ∧
    sendOrigin 0x68 3 true = { inputs := [], reported := false } := by decide
theorem test_cycle_start : startCycle 1 (.position 90) .idle = some (.running 1 (.position 90)) ∧
    startCycle 1 (.position 90) (.running 1 (.position 0)) = none := by decide

/-! ### Witnesses: the hypotheses of each obligation are met -/

theorem witness_QuantTruncatesExactProduct : defaultParams.mulMode = .exact := rfl
theorem witness_QuantisationErrorBelowOneStep : defaultParams.mulMode = .exact ∧ 0 < 1 ∧
    -2147483648 ≤ trunc ((2147483647 : FcNum) * ((1 : Nat) : Rat)) ∧
    trunc ((2147483647 : FcNum) * ((1 : Nat) : Rat)) ≤ 2147483647 := by
  have h : (2147483647 : FcNum) * ((1 : Nat) : Rat) = ((2147483647 : Int) : Rat) := by norm_num
  rw [h, trunc_intCast]
  decide
theorem witness_RoundedProductKeepsSmallIntegers : ∃ p : Params, p.mulMode = .rounded ∧
    ((2 : Nat) : Rat) * (8388608 : FcNum) = ((16777216 : Int) : Rat) ∧ (-16777216 : Int) ≤ 16777216 :=
  ⟨{ defaultParams with mulMode := .rounded, floatFmt := .binary32 }, rfl, by norm_num, by decide⟩
theorem witness_AppendI32WritesBigEndian : (stAt 4 []).cur.toNat ≤ 4 ∧ 4 < (stAt 5 []).cur.toNat := by decide
theorem witness_AppendI16WritesBigEndian : (stAt 6 []).cur.toNat ≤ 6 ∧ 6 < (stAt 7 []).cur.toNat := by decide
theorem witness_AppendU8WritesOneByte : (stAt 7 []).cur.toNat ≤ 7 ∧ 7 < (stAt 8 []).cur.toNat := by decide
theorem witness_ReadI16AnswersSignedInteger : vecB[6]? = some 0x19 ∧ vecB[6 + 1]? = some 0x00 ∧ vecB.length < 7 + 2 := by decide
theorem witness_ReadI8AnswersSignedByte : vecB[7]? = some 0x00 ∧ vecB.length < 8 + 1 := by decide
theorem witness_ReadU8AnswersUnsignedByte : vecC[7]? = some 0xFF ∧ vecC.length < 8 + 1 := by decide
theorem witness_AppendThenReadI16IsIdentity : (stAt 6 []).cur.toNat ≤ 6 ∧ (-32768 : Int) ≤ -32768 ∧ (-32768 : Int) ≤ 32767 := by
  decide
theorem witness_ComposeCopiesWrittenBuffer :
    (stAt 2 [(0, 1), (1, 2)]).cur.toNat ≤ 8 ∧ payloadWritten (stAt 2 [(0, 1), (1, 2)]) := by
  refine ⟨by decide, fun a h => ?_⟩
  have h2 : a < 2 := h
  obtain rfl | rfl : a = 0 ∨ a = 1 := by omega
  · exact ⟨1, rfl⟩
  · exact ⟨2, rfl⟩
theorem witness_PeekBeyondCursorFaults : (stAt 1 [(0, 1), (1, 2)]).cur.toNat ≤ 1 ∧ bufRead (stAt 2 [(0, 1)]).buf 1 = none := by
  decide
theorem witness_SetOriginSendsLegalMode : (2 : BitVec 8).toNat ≤ 2 := by decide
theorem witness_SetOriginRejectsOtherModes : 3 ≤ (3 : BitVec 8).toNat ∧ 3 ≤ (255 : BitVec 8).toNat := by decide

/-- Exact products, for the values of the commands (DUTY to POSITION and POSITION_PROFILE). -/
theorem witness_ValueCommands : State.reset.params.mulMode = .exact := rfl

/-- A command, the state it leaves and the frame it emits (EmittedIdentifierLayout, EmittedFrameShape). -/
theorem witness_EmittedFrame : ∃ t f, commandOf (.setOrigin 0x68 1) = some (.setOrigin, 0x68) ∧
    exec (.setOrigin 0x68 1) State.reset = .next t ∧ t.tx = State.reset.tx ++ [f] :=
  ⟨_, _, rfl, (exec_setOrigin_legal (by decide) _ _).trans (command_next .setOrigin 0x68 _ State.reset (by decide)), rfl⟩
theorem witness_CurrentAndBrakeDifferInOpcodeOnly : State.reset.params.scaleCurrent = State.reset.params.scaleBrake := rfl
theorem witness_CommandFrameForgetsState : State.reset.params = (stAt 3 [(0, 1)]).params ∧ ∃ t f,
    commandOf (.setOrigin 0x68 1) = some (.setOrigin, 0x68) ∧ exec (.setOrigin 0x68 1) State.reset = .next t ∧
    t.tx = State.reset.tx ++ [f] := ⟨rfl, witness_EmittedFrame⟩
theorem witness_MachineEmitsEncodedFrame : ∃ f, encodeFrame State.reset.params (.velocity 1 (-2000)) = some f := ⟨_, rfl⟩
theorem witness_FeedbackUnpacksRawFields : (fb vecB).ide = true ∧ (fb vecB).dlc = 8 ∧ (fb vecB).id.extractLsb' 0 8 = 0x68 ∧
    (fb vecB).data = [0x00, 0x0A, 0xFF, 0x38, 0x00, 0x64, 0x19, 0x00] := by decide
theorem witness_FeedbackDiscardsOtherFrames : { fb vecB with ide := false }.ide = false ∧ { fb vecB with dlc := 9 }.dlc ≠ 8 ∧
    { fb vecB with id := 0x6800 }.id.extractLsb' 0 8 ≠ (0x68 : BitVec 8) := by decide
theorem witness_FeedbackIgnoresUpperIdentifier :
    (0x1FFFFF68 : BitVec 29).extractLsb' 0 8 = (fb vecB).id.extractLsb' 0 8 := by decide
theorem witness_UnpackIsBijection : rawInRange { pos := -32768, vel := 32767, cur := 0, temp := -128, err := 255 } := by
  unfold rawInRange
  decide

/-- A decode and the sample it emits. -/
theorem witness_EmittedSampleRanges : ∃ t x, exec (.decodeFeedback 0x68 (fb vecB)) State.reset = .next t ∧
    t.tlm = State.reset.tlm ++ [x] ∧ State.reset.params.lsbPosition = 1 / 10 ∧ State.reset.params.lsbVelocity = 10 ∧
    State.reset.params.lsbCurrent = 1 / 100 :=
  ⟨_, _, exec_decodeFeedback_accepted (rxd := ⟨vecB, rfl⟩) (by decide) rfl, rfl, by norm_num [State.reset, defaultParams, Rat.mkRat_eq_div],
    rfl, by norm_num [State.reset, defaultParams, Rat.mkRat_eq_div]⟩
theorem witness_OtherFramesDoNotLoopBack : Kind.setOrigin ≠ .positionProfile ∧ ∃ t f,
    commandOf (.setOrigin 0x68 1) = some (.setOrigin, 0x68) ∧ exec (.setOrigin 0x68 1) State.reset = .next t ∧
    t.tx = State.reset.tx ++ [f] := ⟨by decide, witness_EmittedFrame⟩

/-- An operation that completes (OnlyItsOwnPathEmits too). -/
theorem witness_EveryOperationAnswersOnce : ∃ t, exec .clr State.reset = .next t := ⟨_, rfl⟩

/-- One fault of each cause that an operation can answer (FaultLeavesNoOtherTrace, FaultsBelongToTheirOperations). -/
theorem witness_Faults :
    (∃ t, exec (.setOrigin 0 3) State.reset = .next t ∧
      t.responses = State.reset.responses ++ [.fault (.invalidParameter 3)]) ∧
    (∃ t, exec (.appendU8 1) (stAt 8 []) = .next t ∧ t.responses = (stAt 8 []).responses ++ [.fault (.bufferOverflow 8)]) ∧
    ∃ t, exec (.readU8 [] 0) State.reset = .next t ∧ t.responses = State.reset.responses ++ [.fault (.readOutOfRange 0)] :=
  ⟨⟨_, rfl, rfl⟩, ⟨_, rfl, rfl⟩, ⟨_, rfl, rfl⟩⟩
theorem witness_PathsAreIndependent : writesBuffer .clr = true ∧ writesBuffer (.readU8 [7] 0) = false ∧
    ∃ a b, exec .clr State.reset = .next a ∧ exec (.readU8 [7] 0) a = .next b := ⟨rfl, rfl, _, _, rfl, rfl⟩
theorem witness_StepRunsPresentedOperation :
    (stIn [present (.duty 0x68 (mkRat 1 2))]).inputs = .op (encodeRequest (.duty 0x68 (mkRat 1 2))) :: [] ∧
    decodeRequest (encodeRequest (.duty 0x68 (mkRat 1 2))) = .ok (.duty 0x68 (mkRat 1 2)) ∧
    (Instr.duty 0x68 (mkRat 1 2)).wellFormed State.reset.params = true := by decide
theorem witness_KindSevenIsInvalid : (stIn [.op (.cmd 7 1 (.binary32 0x7F800000) 9 0 0), .reset]).inputs =
    .op (.cmd 7 1 (.binary32 0x7F800000) 9 0 0) :: [.reset] := rfl
theorem witness_BoundaryRefusesNonFinite : (stIn [.op (.cmd 0 1 (.binary32 0x7F800000) 9 0 0)]).inputs =
      .op (.cmd 0 1 (.binary32 0x7F800000) 9 0 0) :: [] ∧ hostNum (.binary32 0x7F800000) = none ∧
    (0 : BitVec 3).toNat ≠ 5 ∧ (0 : BitVec 3).toNat ≠ 7 ∧ (5 : BitVec 3).toNat = 5 := by decide
theorem witness_IdleStepChangesNothing : State.reset.inputs = [] := rfl
theorem witness_ResetEventClearsBuffer : ({ stAt 5 [(0, 1)] with inputs := [.reset] } : State).inputs = .reset :: [] := rfl

/-- A state that meets the invariant and takes a step. -/
theorem witness_StepKeepsInvariant : StateInv (stAt 1 [(0, 5)]) ∧ step (stAt 1 [(0, 5)]) = .next (stAt 1 [(0, 5)]) := by
  refine ⟨⟨by decide, by decide, fun a h => ?_, fun _ h => ?_, fun _ h => ?_⟩, rfl⟩
  · have h2 : a < 1 := h
    obtain rfl : a = 0 := by omega
    exact ⟨5, rfl⟩
  · cases h
  · cases h
theorem witness_StepKeepsParameters : ∃ t, step (stIn [.reset]) = .next t := ⟨_, rfl⟩
theorem witness_WireFormRoundTrips : paramsPositive defaultParams = true ∧ opcodesDistinct defaultParams ∧
    defaultParams.mulMode = .exact ∧ wireExact defaultParams (.duty 0x68 (mkRat (-2147483648) 100000)) ∧
    wireExact defaultParams (.positionProfile 1 (mkRat 900000 10000) (-32768) 32767) ∧
    wireExact defaultParams (.setOrigin 1 2) := by
  refine ⟨by decide, ?_, rfl, ⟨-2147483648, by decide, by decide, rfl⟩,
    ⟨⟨900000, by decide, by decide, rfl⟩, ⟨by decide, by decide⟩, ⟨by decide, by decide⟩⟩, by simp [wireExact]⟩
  intro k j h
  cases k <;> cases j <;> first | rfl | exact absurd h (by decide)
theorem witness_ReadFramesReencode : paramsPositive defaultParams = true ∧ defaultParams.mulMode = .exact ∧ decodeFrame defaultParams
    { ide := true, id := 0x568, dlc := 1, data := [2] } = .ok (.setOrigin 0x68 2) := by decide
theorem witness_CancelSendsOneNeutralFrame :
    activeKind (.duty (mkRat 1 2)) = .duty ∧ activeKind (.velocity 1) = .velocity ∧
    (stIn [present (.duty 0x68 0)]).inputs = (tick .skip { inbound := none, cancel := true, transmitError := false }
      (.stopping 0x68 (.duty (mkRat 1 2)))).inputs := by decide
theorem witness_PositionStopRepeatsLastFrame : activeKind (.position 90) = .position ∧
    (activeInstr 1 (.position 90)).wellFormed State.reset.params = true ∧
    (encodeFrame State.reset.params (activeInstr 1 (.position 90))).isSome = true ∧
    (stIn [present (.position 1 90)]).inputs = (tick defaultPolicy
      { inbound := none, cancel := false, transmitError := false } (.stopping 1 (.position 90))).inputs := by decide
theorem witness_RunningTickSendsActiveCommand :
    (activeInstr 0x68 (.duty (mkRat 1 2))).wellFormed State.reset.params = true ∧ (fb vecB).wellFormed = true ∧
    (stIn [present (.duty 0x68 (mkRat 1 2)), present (.decodeFeedback 0x68 (fb vecB))]).inputs = (tick defaultPolicy
      { inbound := some (fb vecB), cancel := false, transmitError := true } (.running 0x68 (.duty (mkRat 1 2)))).inputs := by
  decide

end Sys2Proof.Tests
end

section
/-! PROOF. The integer conversions of 00_scope R15. -/

namespace Sys2Proof.Machine

theorem wrap_toNat_eq_emod (N : Nat) (n : Int) : ((wrap N n).toNat : Int) = n % 2 ^ N := by
  have hnonneg : (0 : Int) ≤ n % 2 ^ N := Int.emod_nonneg n (by positivity)
  rw [wrap, BitVec.toNat_ofInt]
  push_cast
  exact Int.toNat_of_nonneg hnonneg

/-- At width 0 the threshold `2 ^ (N - 1)` is 1, not one half, but the only pattern is 0. -/
theorem sext_eq_ite {N : Nat} (u : BitVec N) :
    sext u = if u.toNat < 2 ^ (N - 1) then (u.toNat : Int) else (u.toNat : Int) - 2 ^ N := by
  rw [sext, BitVec.toInt_eq_toNat_cond]
  cases N with
  | zero => simp [BitVec.of_length_zero]
  | succ N =>
    have hhalf : 2 * u.toNat < 2 ^ (N + 1) ↔ u.toNat < 2 ^ N := by rw [pow_succ]; omega
    simp [hhalf]

theorem sext_mem_range {N : Nat} (u : BitVec (N + 1)) : -(2 ^ N : Int) ≤ sext u ∧ sext u ≤ 2 ^ N - 1 :=
  ⟨BitVec.le_toInt u, Int.le_sub_one_of_lt BitVec.toInt_lt⟩

theorem trunc_eq_floor (q : Rat) : trunc q = if 0 ≤ q then ⌊q⌋ else -⌊-q⌋ := rfl

theorem beBytes_length_of_bytes {m : Nat} (u : BitVec (8 * m)) : (beBytes u).length = m := by
  rw [beBytes_length, Nat.mul_div_cancel_left m (by decide)]

theorem beBytes_getElem? {m : Nat} (u : BitVec (8 * m)) {k : Nat} (hk : k < m) :
    (beBytes u)[k]? = some (u.extractLsb' (8 * (m - 1 - k)) 8) := by
  have hstart : 8 * m - 8 - 8 * k = 8 * (m - 1 - k) := by omega
  simp [beBytes, hk, hstart]

/-- The leading byte is the top one; the others are the bytes of what remains below it. -/
theorem beBytes_succ {m : Nat} (u : BitVec (8 * (m + 1))) :
    beBytes u = u.extractLsb' (8 * m) 8 :: beBytes (u.setWidth (8 * m)) := by
  have hlen (n : Nat) : 8 * n / 8 = n := Nat.mul_div_cancel_left n (by decide)
  rw [beBytes, beBytes, hlen, hlen, List.range_succ_eq_map, List.map_cons, List.map_map]
  congr 1
  refine List.map_congr_left fun k hk => ?_
  have hk : k < m := List.mem_range.mp hk
  have hstart : 8 * (m + 1) - 8 - 8 * (k + 1) = 8 * m - 8 - 8 * k := by omega
  rw [BitVec.extractLsb'_setWidth_of_le (by omega), Function.comp_apply, hstart]

/-- Reading back the big-endian bytes of a quantity gives the quantity: by induction on the number of bytes, the leading
byte being the quotient by `2 ^ (8 * m)` and the rest the remainder. -/
theorem beUint_beBytes {m : Nat} (u : BitVec (8 * m)) : beUint (beBytes u) = u.toNat := by
  induction m with
  | zero => simp [beBytes, beUint, BitVec.of_length_zero]
  | succ m ih =>
    have hpow : 256 ^ m = 2 ^ (8 * m) := by norm_num [pow_mul]
    have htop : u.toNat / 2 ^ (8 * m) < 2 ^ 8 :=
      Nat.div_lt_of_lt_mul (by simpa [mul_add, pow_add] using u.isLt)
    calc beUint (beBytes u)
        = u.toNat / 2 ^ (8 * m) % 2 ^ 8 * 2 ^ (8 * m) + u.toNat % 2 ^ (8 * m) := by
          rw [beBytes_succ, beUint_cons, ih, beBytes_length_of_bytes, hpow, BitVec.extractLsb'_toNat,
            Nat.shiftRight_eq_div_pow, BitVec.toNat_setWidth]
      _ = u.toNat := by rw [Nat.mod_eq_of_lt htop, Nat.div_add_mod']

/-- Settles O1, a clause for each conversion; the last, `be_uint` after `be_N`, by induction on the number of bytes. -/
theorem integerConversionsAreTheSpecs : Obligations.IntegerConversionsAreTheSpecs :=
  ⟨wrap_toNat_eq_emod, fun _ => sext_eq_ite, fun _ => sext_mem_range, fun _ _ => rfl, trunc_eq_floor,
    fun _ u => ⟨beBytes_length_of_bytes u, fun _ => beBytes_getElem? u⟩, ⟨rfl, beUint_cons⟩, fun _ => beUint_beBytes⟩

end Sys2Proof.Machine
end

section
/-! PROOF. The wire encoding of the commands: the identifier of an emitted frame (30_encoding R61) and the modes that
`SET_ORIGIN` rejects (R73). -/

namespace Sys2Proof.Machine

/-! ### The fields of the identifier, read off its value `opc * 256 + aid` -/

/-- The field of `w` bits from bit `start` on, as a quotient and a remainder of the identifier's value. -/
theorem identifier_extractLsb'_toNat (opc : BitVec opcBits) (aid : BitVec aidBits) (start w : Nat) :
    ((identifier opc aid).extractLsb' start w).toNat = (opc.toNat * 256 + aid.toNat) / 2 ^ start % 2 ^ w := by
  rw [BitVec.extractLsb'_toNat, identifier_toNat, Nat.shiftRight_eq_div_pow]

theorem identifier_upper (opc : BitVec opcBits) (aid : BitVec aidBits) : (identifier opc aid).extractLsb' 16 13 = 0 := by
  have hopc : opc.toNat < 256 := opc.isLt
  have haid : aid.toNat < 256 := aid.isLt
  apply BitVec.eq_of_toNat_eq
  have hzero : (0 : BitVec 13).toNat = 0 := rfl
  rw [identifier_extractLsb'_toNat, hzero]
  omega

theorem identifier_opcode (opc : BitVec opcBits) (aid : BitVec aidBits) : (identifier opc aid).extractLsb' 8 8 = opc := by
  have hopc : opc.toNat < 256 := opc.isLt
  have haid : aid.toNat < 256 := aid.isLt
  apply BitVec.eq_of_toNat_eq
  rw [identifier_extractLsb'_toNat]
  omega

theorem identifier_actuator (opc : BitVec opcBits) (aid : BitVec aidBits) : (identifier opc aid).extractLsb' 0 8 = aid := by
  have haid : aid.toNat < 256 := aid.isLt
  apply BitVec.eq_of_toNat_eq
  rw [identifier_extractLsb'_toNat]
  omega

/-! ### The frame a command emits -/

/-- The frame a command adds to TX is the composer's, with a payload of the kind's length: of the effects an operation
can have, only `Effect.sent` lengthens TX. -/
theorem emitted_eq_commandFrame {i : Instr} {k : Kind} {aid : BitVec aidBits} {s t : State} {f : Frame}
    (hi : commandOf i = some (k, aid)) (he : exec i s = .next t) (htx : t.tx = s.tx ++ [f]) :
    ∃ data, data.length = payloadLength k ∧ f = commandFrame s.params k aid data := by
  cases exec_effect he with
  | cleared _ => simp at htx
  | appended _ _ _ _ _ => simp at htx
  | answered _ _ => simp at htx
  | sampled _ _ _ _ _ _ => simp at htx
  | sent k' aid' data hi' hl =>
    obtain ⟨rfl, rfl⟩ : k' = k ∧ aid' = aid := by simpa [hi'] using hi
    exact ⟨data, hl, by simpa [commandFrame, hl] using htx.symm⟩

/-- Settles O23: the emitted identifier is the composed one, whose fields are those of `opc * 256 + aid`. -/
theorem emittedIdentifierLayout : Obligations.EmittedIdentifierLayout := by
  intro i k aid s t f hi he htx
  obtain ⟨data, -, rfl⟩ := emitted_eq_commandFrame hi he htx
  exact ⟨identifier_upper _ _, identifier_opcode _ _, identifier_actuator _ _, rfl, identifier_toNat _ _⟩

/-! ### The modes `SET_ORIGIN` rejects -/

/-- Settles O21: such a mode is not legal, and the illegal arm of `SET_ORIGIN` only responds. -/
theorem setOriginRejectsOtherModes : Obligations.SetOriginRejectsOtherModes := by
  intro s aid mode hmode
  have hillegal : ¬legalMode mode = true := by rw [legalMode_iff]; omega
  exact ⟨_, exec_setOrigin_illegal hillegal aid s, answered_respond s _⟩

end Sys2Proof.Machine
end

section
/-! PROOF. The primitives on integers of several bytes (40_codec_primitives R92, R93, R95): the two appends, which are
the shared `appendOp` on the big-endian bytes, and the signed 16-bit read. -/

namespace Sys2Proof.Machine

/-! ### Appends -/

theorem exec_appendI32Be (v : Int) (s : State) : exec (.appendI32Be v) s = appendOp (i32Bytes v) s := rfl

theorem exec_appendI16Be (v : Int) (s : State) : exec (.appendI16Be v) s = appendOp (i16Bytes v) s := rfl

theorem i32Bytes_length (v : Int) : (i32Bytes v).length = 4 := rfl

theorem i16Bytes_length (v : Int) : (i16Bytes v).length = 2 := rfl

/-- Settles O6: four bytes fit exactly when `CUR` is at most 4. -/
theorem appendI32WritesBigEndian : Obligations.AppendI32WritesBigEndian := by
  intro s v
  rw [exec_appendI32Be]
  exact ⟨fun h => appendOp_appended (by rw [i32Bytes_length]; omega),
    fun h => appendOp_answered (by rw [i32Bytes_length]; omega)⟩

/-- Settles O7: two bytes fit exactly when `CUR` is at most 6. -/
theorem appendI16WritesBigEndian : Obligations.AppendI16WritesBigEndian := by
  intro s v
  rw [exec_appendI16Be]
  exact ⟨fun h => appendOp_appended (by rw [i16Bytes_length]; omega),
    fun h => appendOp_answered (by rw [i16Bytes_length]; omega)⟩

/-! ### Reads -/

theorem readOp_answered_value {r : Except FaultCause Int} {n : Int} (hr : r = .ok n) (s : State) :
    ∃ t, readOp r s = .next t ∧ answered s t (.value n) :=
  ⟨s.respond (.value n), by rw [hr]; rfl, answered_respond s _⟩

theorem readOp_answered_fault {r : Except FaultCause Int} {f : FaultCause} (hr : r = .error f) (s : State) :
    ∃ t, readOp r s = .next t ∧ answered s t (.fault f) :=
  ⟨s.respond (.fault f), by rw [hr]; rfl, answered_respond s _⟩

theorem exec_readI16Be (bytes : List Byte) (offset : Nat) (s : State) :
    exec (.readI16Be bytes offset) s = readOp (readI16 bytes offset) s := rfl

/-- The signed integer of two bytes is a sign extension, so it has the range of one. -/
theorem i16Of_mem_range (hi lo : Byte) : -32768 ≤ i16Of hi lo ∧ i16Of hi lo ≤ 32767 := by
  rw [← i16Of_eq]
  exact sext_mem_range (N := 15) _

/-- The word at two bytes of the list is their big-endian number. -/
theorem memWord_two {bytes : List Byte} {offset : Nat} {hi lo : Byte} (hhi : bytes[offset]? = some hi)
    (hlo : bytes[offset + 1]? = some lo) : memWord bytes offset 2 = BitVec.ofNat 16 (beUint [hi, lo]) := by
  obtain ⟨hlt, rfl⟩ := List.getElem?_eq_some_iff.mp hhi
  obtain ⟨hlt', rfl⟩ := List.getElem?_eq_some_iff.mp hlo
  rw [memWord, List.drop_eq_getElem_cons hlt, List.drop_eq_getElem_cons hlt']
  rfl

theorem readI16_of_bytes {bytes : List Byte} {offset : Nat} {hi lo : Byte} (hhi : bytes[offset]? = some hi)
    (hlo : bytes[offset + 1]? = some lo) : readI16 bytes offset = .ok (i16Of hi lo) := by
  obtain ⟨hlt, -⟩ := List.getElem?_eq_some_iff.mp hlo
  have hfits : offset + 2 ≤ bytes.length := hlt
  rw [readI16, memRead_fits hfits, memWord_two hhi hlo, ← i16Of_eq]
  rfl

theorem readI16_outOfRange {bytes : List Byte} {offset : Nat} (h : bytes.length < offset + 2) :
    readI16 bytes offset = .error (.readOutOfRange offset) := by
  rw [readI16, memRead_outOfRange h]
  rfl

/-- Settles O9: the read is the signed integer of the two bytes, or the fault of the bounds check, and answering it is
all the operation does. -/
theorem readI16AnswersSignedInteger : Obligations.ReadI16AnswersSignedInteger := by
  intro s bytes offset
  rw [exec_readI16Be]
  exact ⟨fun hi lo hhi hlo => ⟨readOp_answered_value (readI16_of_bytes hhi hlo) s, i16Of_mem_range hi lo⟩,
    fun h => readOp_answered_fault (readI16_outOfRange h) s⟩

end Sys2Proof.Machine
end

section
/-! PROOF. The frame composer and the command encoder (41_command_encoder R110, R112 to R116, R118): what `COMPOSE`
copies from a written buffer, and the payloads of the commands with a real operand. -/

namespace Sys2Proof.Machine

/-! ### `COMPOSE` -/

/-- A written payload is a byte list of length `CUR`. -/
theorem payloadWritten_exists_data {s : State} (h : payloadWritten s) :
    ∃ data : List Byte, data.length = s.cur.toNat ∧ ∀ a, a < data.length → bufRead s.buf a = data[a]? := by
  choose byteAt hbyte using h
  refine ⟨List.ofFn fun a : Fin s.cur.toNat => byteAt a a.isLt, List.length_ofFn, fun a ha => ?_⟩
  have hcur : a < s.cur.toNat := by simpa using ha
  simp [hbyte a hcur, hcur]

theorem identifier_le (opc : BitVec opcBits) (aid : BitVec aidBits) : (identifier opc aid).toNat ≤ 0xFFFF := by
  have hopc : opc.toNat < 256 := opc.isLt
  have haid : aid.toNat < 256 := aid.isLt
  rw [identifier_toNat]
  omega

/-- Settles O13: the composed frame carries the byte list that the written payload is. -/
theorem composeCopiesWrittenBuffer : Obligations.ComposeCopiesWrittenBuffer := by
  intro s opc aid hcur hwritten
  obtain ⟨data, hlen, hdata⟩ := payloadWritten_exists_data hwritten
  exact ⟨_, compose_written opc aid hlen.symm hdata, rfl, rfl, identifier_le opc aid, rfl, hlen, hcur,
    fun a ha => hdata a (hlen ▸ ha)⟩

/-! ### The single-value commands -/

/-- At the default product mode the field of a real operand holds the truncated exact product. -/
theorem beBytes_quant_exact {p : Params} (h : p.mulMode = .exact) (val : FcNum) (scale : Nat) :
    beBytes (quant p val scale) = i32Bytes (trunc (val * (scale : Rat))) := by
  rw [quant, scaledTrunc_exact h, mul_comm]
  rfl

/-- An operation that is the command of one quantised field does what a single-value command does. -/
theorem valueCommand_of_exec (k : Kind) {mk : BitVec aidBits → FcNum → Instr} {opc : Params → BitVec opcBits}
    {scale : Params → Nat} {S : Nat} (hdefault : scale defaultParams = S) (hopc : ∀ p, opcodeOf p k = opc p)
    (hexec : ∀ aid val s, exec (mk aid val) s = command k aid [quantField s.params val (scale s.params)] s) :
    valueCommand mk opc scale S := by
  refine ⟨hdefault, fun s aid val => ?_⟩
  obtain ⟨t, hnext, hsent⟩ := command_sent k aid [quantField s.params val (scale s.params)] s
    (by simp [quantField])
  rw [hopc, List.flatten_singleton] at hsent
  exact ⟨t, (hexec aid val s).trans hnext, hsent, fun h => beBytes_quant_exact h val _⟩

/-- Settles O15: `DUTY` is the command of the one field quantised with `SCALE_DUTY`. -/
theorem dutySendsQuantisedValue : Obligations.DutySendsQuantisedValue :=
  valueCommand_of_exec .duty rfl (fun _ => rfl) exec_duty

/-- Settles O16: `CURRENT` is the command of the one field quantised with `SCALE_CURRENT`. -/
theorem currentSendsQuantisedValue : Obligations.CurrentSendsQuantisedValue :=
  valueCommand_of_exec .current rfl (fun _ => rfl) exec_current

/-- Settles O17: `CURRENT_BRAKE` is the command of the one field quantised with `SCALE_BRAKE`. -/
theorem currentBrakeSendsQuantisedValue : Obligations.CurrentBrakeSendsQuantisedValue :=
  valueCommand_of_exec .currentBrake rfl (fun _ => rfl) exec_currentBrake

/-- Settles O18: `VELOCITY` is the command of the one field quantised with `SCALE_VELOCITY`. -/
theorem velocitySendsQuantisedValue : Obligations.VelocitySendsQuantisedValue :=
  valueCommand_of_exec .velocity rfl (fun _ => rfl) exec_velocity

/-- Settles O19: `POSITION` is the command of the one field quantised with `SCALE_POSITION`. -/
theorem positionSendsQuantisedValue : Obligations.PositionSendsQuantisedValue :=
  valueCommand_of_exec .position rfl (fun _ => rfl) exec_position

/-! ### `POSITION_PROFILE` -/

/-- The three fields of a position profile, one after the other. -/
theorem positionProfile_fields (q : List Byte) (vlim alim : Int) :
    [q, beBytes (wrap 16 vlim), beBytes (wrap 16 alim)].flatten = q ++ i16Bytes vlim ++ i16Bytes alim := by
  simp only [List.flatten_cons, List.flatten_nil, List.append_nil, List.append_assoc]
  rfl

/-- Settles O22: the three fields take 4 + 2 + 2 bytes, which fit from every state. -/
theorem positionProfileSendsThreeFields : Obligations.PositionProfileSendsThreeFields := by
  refine ⟨rfl, fun s aid val vlim alim => ?_⟩
  obtain ⟨t, hnext, hsent⟩ := command_sent .positionProfile aid
    [quantField s.params val s.params.scalePosition, beBytes (wrap 16 vlim), beBytes (wrap 16 alim)] s
    (by simp [quantField])
  rw [positionProfile_fields] at hsent
  exact ⟨t, (exec_positionProfile aid val vlim alim s).trans hnext, hsent, fun h => beBytes_quant_exact h val _⟩

end Sys2Proof.Machine
end

section
/-! PROOF. The feedback decoder (42_feedback_decoder R142): the raw fields of the sample an accepted frame gives. -/

namespace Sys2Proof.Machine

/-- Settles O28: the frame passes the filter, and the sample's raw fields are those the eight bytes unpack to. -/
theorem feedbackUnpacksRawFields : Obligations.FeedbackUnpacksRawFields := by
  intro s expId f b0 b1 b2 b3 b4 b5 b6 b7 hide hdlc hid hdata
  have haccept : accept f expId = true := (accept_iff f expId).mpr ⟨hide, hdlc, hid⟩
  refine ⟨_, _, exec_decodeFeedback_accepted (rxd := ⟨[b0, b1, b2, b3, b4, b5, b6, b7], rfl⟩) haccept hdata, rfl, ?_⟩
  rw [unpack_eq]
  exact ⟨rfl, rfl, rfl, rfl, rfl⟩

end Sys2Proof.Machine
end

section
/-! PROOF. The wire form of the commands (30_encoding R60 to R69): bytes and quantities, the payloads of the kinds, and
both directions between a command and its frame. -/

namespace Sys2Proof.Machine

/-! ### Byte lists and the quantities they spell -/

theorem beUint_lt (bs : List Byte) : beUint bs < 256 ^ bs.length := by
  induction bs with
  | nil => simp [beUint]
  | cons b bs ih =>
    have hb : b.toNat ≤ 255 := Nat.le_of_lt_succ b.isLt
    calc beUint (b :: bs) = b.toNat * 256 ^ bs.length + beUint bs := beUint_cons b bs
      _ < 255 * 256 ^ bs.length + 256 ^ bs.length := Nat.add_lt_add_of_le_of_lt (Nat.mul_le_mul_right _ hb) ih
      _ = 256 ^ (b :: bs).length := by rw [List.length_cons, pow_succ]; ring

theorem beUint_singleton (b : Byte) : beUint [b] = b.toNat := by simp [beUint]

theorem ofNat_beUint_beBytes {m : Nat} (u : BitVec (8 * m)) : BitVec.ofNat (8 * m) (beUint (beBytes u)) = u := by
  rw [beUint_beBytes, BitVec.ofNat_toNat, BitVec.setWidth_eq]

/-- A byte list is the big-endian form of the quantity it spells: by induction on the list, with the leading byte the
quotient by `256 ^ m` and the others below it. -/
theorem beBytes_ofNat_beUint {m : Nat} {bs : List Byte} (h : bs.length = m) :
    beBytes (BitVec.ofNat (8 * m) (beUint bs)) = bs := by
  induction bs generalizing m with
  | nil => subst h; rfl
  | cons b bs ih =>
    subst h
    have hpow : 256 ^ bs.length = 2 ^ (8 * bs.length) := by norm_num [pow_mul]
    have hlt : beUint bs < 2 ^ (8 * bs.length) := hpow ▸ beUint_lt bs
    rw [List.length_cons, beBytes_succ, beUint_cons, hpow]
    congr 1
    · have hall : b.toNat * 2 ^ (8 * bs.length) + beUint bs < 2 ^ (8 * (bs.length + 1)) := by
        have hlast := beUint_lt (b :: bs)
        rw [beUint_cons, hpow] at hlast
        simpa [pow_mul] using hlast
      apply BitVec.eq_of_toNat_eq
      rw [BitVec.extractLsb'_toNat, BitVec.toNat_ofNat, Nat.mod_eq_of_lt hall, Nat.shiftRight_eq_div_pow,
        Nat.mul_comm, Nat.mul_add_div (by positivity), Nat.div_eq_of_lt hlt, Nat.add_zero, Nat.mod_eq_of_lt b.isLt]
    · have hlow : BitVec.ofNat (8 * bs.length) (b.toNat * 2 ^ (8 * bs.length) + beUint bs) =
          BitVec.ofNat (8 * bs.length) (beUint bs) := BitVec.eq_of_toNat_eq (by simp)
      rw [BitVec.setWidth_ofNat_of_le (by omega), hlow, ih rfl]

/-- An integer in the signed range of a width is read back from its pattern. -/
theorem sext_wrap {N : Nat} {n : Int} (hlo : -2 ^ N ≤ n) (hhi : n < 2 ^ N) : sext (wrap (N + 1) n) = n :=
  BitVec.toInt_ofInt_eq_self N.succ_pos hlo hhi

theorem sext_wrap16 {n : Int} (h : int16 n) : sext (wrap 16 n) = n := by
  obtain ⟨hlo, hhi⟩ := h
  exact sext_wrap (N := 15) (by omega) (by omega)

/-! ### Real operands on the grid of the encoding -/

theorem natCast_mul_mkRat {S : Nat} (hS : 0 < S) (n : Int) : (S : Rat) * mkRat n S = n := by
  have hne : (S : Rat) ≠ 0 := by exact_mod_cast hS.ne'
  rw [Rat.mkRat_eq_div, mul_div_assoc']
  simp [hne]

/-- At exact products `n / SCALE` is quantised to `n`. -/
theorem quant_mkRat {p : Params} {S : Nat} (hexact : p.mulMode = .exact) (hS : 0 < S) (n : Int) :
    quant p (mkRat n S) S = wrap 32 n := by
  rw [quant, scaledTrunc_exact hexact, natCast_mul_mkRat hS, trunc_intCast]

theorem numOfQ_quant {p : Params} {S : Nat} {v : FcNum} (hexact : p.mulMode = .exact) (hS : 0 < S) (hv : onGrid S v) :
    numOfQ (beBytes (quant p v S)) S = v := by
  obtain ⟨n, hlo, hhi, rfl⟩ := hv
  have hfield : sext (wrap 32 n) = n := sext_wrap (N := 31) (by omega) (by omega)
  rw [numOfQ, quant_mkRat hexact hS, ofNat_beUint_beBytes (m := 4), hfield]

theorem beBytes_quant_numOfQ {p : Params} {S : Nat} {data : List Byte} (hexact : p.mulMode = .exact) (hS : 0 < S)
    (hlen : data.length = 4) : beBytes (quant p (numOfQ data S) S) = data := by
  rw [numOfQ, quant_mkRat hexact hS, wrap, sext, BitVec.ofInt_toInt]
  exact beBytes_ofNat_beUint hlen

/-! ### Payloads -/

theorem decodePayload_length {p : Params} {k : Kind} {aid : BitVec aidBits} {data : List Byte} {i : Instr}
    (h : decodePayload p k aid data = .ok i) : data.length = payloadLength k := by
  by_contra hne
  unfold decodePayload at h
  rw [if_pos hne] at h
  cases h

theorem paramsPositive_iff (p : Params) : paramsPositive p = true ↔
    0 < p.scaleDuty ∧ 0 < p.scaleCurrent ∧ 0 < p.scaleBrake ∧ 0 < p.scaleVelocity ∧ 0 < p.scalePosition := by
  simp [paramsPositive, and_assoc]

/-- A command with operands on the grid has a frame, and its payload reads as the command. -/
theorem wireExact_encodes {p : Params} {i : Instr} (hpos : paramsPositive p = true) (hexact : p.mulMode = .exact)
    (hi : wireExact p i) : ∃ k aid data, encodeFrame p i = some (commandFrame p k aid data) ∧
      decodePayload p k aid data = .ok i := by
  obtain ⟨hduty, hcurrent, hbrake, hvelocity, hposition⟩ := (paramsPositive_iff p).mp hpos
  cases i with
  | duty _ _ =>
    exact ⟨_, _, _, rfl, by simp [decodePayload, payloadLength, numOfQ_quant hexact hduty hi]⟩
  | current _ _ =>
    exact ⟨_, _, _, rfl, by simp [decodePayload, payloadLength, numOfQ_quant hexact hcurrent hi]⟩
  | currentBrake _ _ =>
    exact ⟨_, _, _, rfl, by simp [decodePayload, payloadLength, numOfQ_quant hexact hbrake hi]⟩
  | velocity _ _ =>
    exact ⟨_, _, _, rfl, by simp [decodePayload, payloadLength, numOfQ_quant hexact hvelocity hi]⟩
  | position _ _ =>
    exact ⟨_, _, _, rfl, by simp [decodePayload, payloadLength, numOfQ_quant hexact hposition hi]⟩
  | setOrigin aid mode =>
    have hmode : mode.toNat ≤ 2 := hi
    exact ⟨_, _, _, if_pos hmode, by simp [decodePayload, payloadLength, beUint_singleton, hmode]⟩
  | positionProfile aid val vlim alim =>
    obtain ⟨hval, hvlim, halim⟩ := hi
    refine ⟨_, _, _, rfl, ?_⟩
    have hv := ofNat_beUint_beBytes (m := 2) (wrap 16 vlim)
    have ha := ofNat_beUint_beBytes (m := 2) (wrap 16 alim)
    simp [decodePayload, payloadLength, List.drop_append, List.drop_eq_nil_of_le, numOfQ_quant hexact hposition hval,
      hv, ha, sext_wrap16 hvlim, sext_wrap16 halim]
  | _ => exact hi.elim

theorem encodeFrame_of_decodePayload {p : Params} {k : Kind} {aid : BitVec aidBits} {data : List Byte} {i : Instr}
    (hpos : paramsPositive p = true) (hexact : p.mulMode = .exact) (h : decodePayload p k aid data = .ok i) :
    encodeFrame p i = some (commandFrame p k aid data) := by
  obtain ⟨hduty, hcurrent, hbrake, hvelocity, hposition⟩ := (paramsPositive_iff p).mp hpos
  have hlen := decodePayload_length h
  unfold decodePayload at h
  rw [if_neg (not_not_intro hlen)] at h
  cases k with
  | duty => cases h; rw [encodeFrame, beBytes_quant_numOfQ hexact hduty hlen]
  | current => cases h; rw [encodeFrame, beBytes_quant_numOfQ hexact hcurrent hlen]
  | currentBrake => cases h; rw [encodeFrame, beBytes_quant_numOfQ hexact hbrake hlen]
  | velocity => cases h; rw [encodeFrame, beBytes_quant_numOfQ hexact hvelocity hlen]
  | position => cases h; rw [encodeFrame, beBytes_quant_numOfQ hexact hposition hlen]
  | setOrigin =>
    obtain ⟨mode, rfl⟩ := List.length_eq_one_iff.mp hlen
    rw [beUint_singleton, BitVec.ofNat_toNat, BitVec.setWidth_eq] at h
    by_cases hmode : mode.toNat ≤ 2
    · rw [if_pos hmode] at h
      cases h
      exact if_pos hmode
    · rw [if_neg hmode] at h
      cases h
  | positionProfile =>
    cases h
    have hq : (data.take 4).length = 4 := by simp [hlen, payloadLength]
    have hv : ((data.drop 4).take 2).length = 2 := by simp [hlen, payloadLength]
    have ha : (data.drop 6).length = 2 := by simp [hlen, payloadLength]
    have hsplit : data.take 4 ++ (data.drop 4).take 2 ++ data.drop 6 = data := by
      have h6 : data.drop 6 = (data.drop 4).drop 2 := by simp
      rw [h6, List.append_assoc, List.take_append_drop, List.take_append_drop]
    rw [encodeFrame, beBytes_quant_numOfQ hexact hposition hq]
    simp only [wrap, sext, BitVec.ofInt_toInt]
    rw [beBytes_ofNat_beUint (m := 2) hv, beBytes_ofNat_beUint (m := 2) ha, hsplit]

/-! ### Frames and images -/

theorem kindOfOpcode_opcodeOf {p : Params} (hdistinct : opcodesDistinct p) (k : Kind) :
    kindOfOpcode p (opcodeOf p k) = some k := by
  cases hfind : kindOfOpcode p (opcodeOf p k) with
  | none =>
    have hmem : k ∈ allKinds := by cases k <;> decide
    exact absurd (List.find?_eq_none.mp hfind k hmem) (by simp)
  | some j =>
    have hop : opcodeOf p j = opcodeOf p k := by simpa using List.find?_some hfind
    rw [hdistinct j k hop]

theorem opcodeOf_of_kindOfOpcode {p : Params} {opc : BitVec opcBits} {k : Kind} (h : kindOfOpcode p opc = some k) :
    opcodeOf p k = opc := by
  simpa using List.find?_some h

theorem payloadLength_toNat (k : Kind) : (BitVec.ofNat 4 (payloadLength k)).toNat = payloadLength k := by
  cases k <;> rfl

theorem decodeFrame_commandFrame {p : Params} (hdistinct : opcodesDistinct p) (k : Kind) (aid : BitVec aidBits)
    (data : List Byte) : decodeFrame p (commandFrame p k aid data) = decodePayload p k aid data := by
  have hupper : (commandFrame p k aid data).id.extractLsb' (opcShift + opcBits) (idBits - opcShift - opcBits) = 0 :=
    identifier_upper _ _
  have hopcode : (commandFrame p k aid data).id.extractLsb' opcShift opcBits = opcodeOf p k := identifier_opcode _ _
  have hactuator : (commandFrame p k aid data).id.extractLsb' 0 aidBits = aid := identifier_actuator _ _
  have hlength : (commandFrame p k aid data).dlc.toNat = payloadLength k := payloadLength_toNat k
  unfold decodeFrame
  simp only [if_neg (not_not_intro hupper), hopcode, kindOfOpcode_opcodeOf hdistinct, if_neg (not_not_intro hlength),
    hactuator]
  rfl

/-- An identifier with no upper bit set is composed of its two fields. -/
theorem identifier_of_fields {id : BitVec idBits} (h : id.extractLsb' 16 13 = 0) :
    identifier (id.extractLsb' 8 8) (id.extractLsb' 0 8) = id := by
  have hupper : id.toNat / 2 ^ 16 % 2 ^ 13 = 0 := by
    rw [← Nat.shiftRight_eq_div_pow, ← BitVec.extractLsb'_toNat, h]; rfl
  have hlt : id.toNat < 2 ^ 29 := id.isLt
  apply BitVec.eq_of_toNat_eq
  rw [identifier_toNat, BitVec.extractLsb'_toNat, BitVec.extractLsb'_toNat, Nat.shiftRight_eq_div_pow,
    Nat.shiftRight_eq_div_pow]
  change id.toNat / 2 ^ 8 % 2 ^ 8 * 256 + id.toNat / 2 ^ 0 % 2 ^ 8 = id.toNat
  omega

/-- A frame that reads as a command is the frame of the kind whose payload it carries. -/
theorem decodeFrame_ok {p : Params} {f : Frame} {i : Instr} (h : decodeFrame p f = .ok i) :
    ∃ k aid, f = commandFrame p k aid f.data ∧ decodePayload p k aid f.data = .ok i := by
  unfold decodeFrame at h
  split at h
  · cases h
  next hide =>
  split at h
  · cases h
  next hupper =>
  split at h
  · cases h
  next k hkind =>
  split at h
  · cases h
  next hdlc =>
  refine ⟨k, _, ?_, h⟩
  have hid := identifier_of_fields (not_not.mp hupper)
  obtain ⟨ide, id, dlc, data⟩ := f
  rw [commandFrame, opcodeOf_of_kindOfOpcode hkind, Frame.mk.injEq]
  exact ⟨by simpa using hide, hid.symm, by rw [← not_not.mp hdlc]; simp, rfl⟩

/-- The identifier has no bit at 16 or above. -/
theorem identifier_extractLsb'_above (opc : BitVec opcBits) (aid : BitVec aidBits) {start : Nat} (h : 16 ≤ start)
    (w : Nat) : (identifier opc aid).extractLsb' start w = 0 := by
  have hlt : (identifier opc aid).toNat < 2 ^ start :=
    calc (identifier opc aid).toNat ≤ 0xFFFF := identifier_le opc aid
      _ < 2 ^ 16 := by decide
      _ ≤ 2 ^ start := Nat.pow_le_pow_right (by decide) h
  apply BitVec.eq_of_toNat_eq
  rw [BitVec.extractLsb'_toNat, Nat.shiftRight_eq_div_pow, Nat.div_eq_of_lt hlt]
  simp

theorem idWord_identifier (opc : BitVec opcBits) (aid : BitVec aidBits) :
    idWord (identifier opc aid) = [aid, opc, 0, 0] := by
  rw [idWord, identifier_actuator, identifier_opcode, identifier_extractLsb'_above _ _ (by decide),
    identifier_extractLsb'_above _ _ (by decide)]
  rfl

/-- The image of a payload that reads as a command is taken off the head of any longer list. -/
theorem decodeBytes_image {p : Params} (hdistinct : opcodesDistinct p) {k : Kind} {aid : BitVec aidBits}
    {data : List Byte} {i : Instr} (h : decodePayload p k aid data = .ok i) (rest : List Byte) :
    decodeBytes p (idWord (identifier (opcodeOf p k) aid) ++ data ++ rest) = .ok (i, rest) := by
  have hlen := decodePayload_length h
  rw [idWord_identifier]
  simp [decodeBytes, kindOfOpcode_opcodeOf hdistinct, ← hlen, h]

/-- Settles O52: the command has a frame whose payload reads as the command; at distinct opcodes the frame and the byte
image lead to that payload. -/
theorem wireFormRoundTrips : Obligations.WireFormRoundTrips := by
  intro p i rest hpos hdistinct hexact hi
  obtain ⟨k, aid, data, hencode, hdecode⟩ := wireExact_encodes hpos hexact hi
  exact ⟨_, hencode, (decodeFrame_commandFrame hdistinct k aid data).trans hdecode, _,
    by rw [encodeBytes, hencode]; rfl, decodeBytes_image hdistinct hdecode rest⟩

/-- Settles O53: the frame is that of the kind it reads as, and its payload is re-encoded byte by byte. -/
theorem readFramesReencode : Obligations.ReadFramesReencode := by
  intro p f i hpos hexact h
  obtain ⟨k, aid, hframe, hpayload⟩ := decodeFrame_ok h
  rw [hframe]
  exact encodeFrame_of_decodePayload hpos hexact hpayload

end Sys2Proof.Machine
end

section
/-! PROOF. The quantiser (40_codec_primitives R97, R100): the truncated product is within one step of the operand, and
rounding in a format moves no integer up to 2^24 (log 7). -/

namespace Sys2Proof.Machine

/-! ### Truncation -/

theorem abs_trunc_le (x : Rat) : |((trunc x : Int) : Rat)| ≤ |x| := by
  rw [trunc_eq_floor]
  split_ifs with hx
  · have hfloor : (0 : Rat) ≤ ⌊x⌋ := by exact_mod_cast Int.floor_nonneg.mpr hx
    rw [abs_of_nonneg hfloor, abs_of_nonneg hx]
    exact Int.floor_le x
  · have hneg : 0 ≤ -x := by linarith
    have hfloor : (0 : Rat) ≤ ⌊-x⌋ := by exact_mod_cast Int.floor_nonneg.mpr hneg
    rw [Int.cast_neg, abs_neg, ← abs_neg x, abs_of_nonneg hfloor, abs_of_nonneg hneg]
    exact Int.floor_le (-x)

theorem abs_sub_trunc_lt (x : Rat) : |x - (trunc x : Int)| < 1 := by
  rw [trunc_eq_floor]
  split_ifs with hx
  · have hlow := Int.floor_le x
    have hhigh := Int.lt_floor_add_one x
    rw [abs_lt]
    constructor <;> linarith
  · have hlow := Int.floor_le (-x)
    have hhigh := Int.lt_floor_add_one (-x)
    rw [Int.cast_neg, abs_lt]
    constructor <;> linarith

/-- Settles O2: at exact products the scaled operand is the truncated exact product. -/
theorem quantTruncatesExactProduct : Obligations.QuantTruncatesExactProduct := by
  intro p v S hexact
  rw [quant, scaledTrunc_exact hexact, mul_comm, trunc_eq_floor]
  rfl

/-- Settles O3: the integer read back is the truncated product `x`; both bounds are those of `trunc x` against `x`,
divided by the scale. -/
theorem quantisationErrorBelowOneStep : Obligations.QuantisationErrorBelowOneStep := by
  intro p f S hexact hS hlo hhi q
  have hq : q = trunc (f * (S : Rat)) := by
    change sext (BitVec.ofNat (8 * 4) (beUint (beBytes (quant p f S)))) = _
    rw [ofNat_beUint_beBytes (m := 4), quant, scaledTrunc_exact hexact, mul_comm (S : Rat)]
    exact sext_wrap (N := 31) (by omega) (by omega)
  have hpos : (0 : Rat) < S := by exact_mod_cast hS
  have hf : f = f * S / S := (mul_div_cancel_right₀ f hpos.ne').symm
  refine ⟨hq, ?_, ?_⟩
  · calc |(q : Rat) / S| = |((trunc (f * S) : Int) : Rat)| / S := by rw [abs_div, abs_of_pos hpos, hq]
      _ ≤ |f * S| / S := div_le_div_of_nonneg_right (abs_trunc_le _) hpos.le
      _ = |f| := by rw [abs_mul, abs_of_pos hpos, mul_div_cancel_right₀ _ hpos.ne']
  · have hdiff : f - (q : Rat) / S = (f * S - (trunc (f * S) : Int)) / S := by rw [hq, sub_div, ← hf]
    calc |f - (q : Rat) / S| = |f * S - (trunc (f * S) : Int)| / S := by rw [hdiff, abs_div, abs_of_pos hpos]
      _ < 1 / S := div_lt_div_of_pos_right (abs_sub_trunc_lt _) hpos

/-! ### Rounding -/

theorem ilog2_one {n : Nat} (hn : n ≠ 0) : ilog2 n 1 = n.log2 := by
  have hlog : Nat.log2 1 = 0 := by decide
  simp [ilog2, hlog, Nat.log2_self_le hn]

theorem roundHalfEven_of_dvd {n d : Nat} (hd : 0 < d) (h : d ∣ n) : roundHalfEven n d = n / d := by
  rw [roundHalfEven, if_pos (Or.inl (by simpa [Nat.mod_eq_zero_of_dvd h] using hd))]

/-- The unit of an integer up to `2 ^ 24`, at a precision of at least 24 bits, divides the integer: it is 1 below
`2 ^ 24`, and at most 2 there. -/
theorem unit_dvd_of_le {n prec : Nat} (hn : n ≤ 2 ^ 24) (hprec : 24 ≤ prec) : 2 ^ (n.log2 - (prec - 1)) ∣ n := by
  rcases Nat.eq_zero_or_pos n with rfl | hpos
  · exact dvd_zero _
  rcases Nat.lt_or_ge n (2 ^ 24) with hlt | hge
  · have hlog : n.log2 < 24 := (Nat.log2_lt hpos.ne').mpr hlt
    have hunit : n.log2 - (prec - 1) = 0 := by omega
    rw [hunit]
    exact one_dvd n
  · obtain rfl : n = 2 ^ 24 := le_antisymm hn hge
    rw [Nat.log2_two_pow]
    exact pow_dvd_pow 2 (by omega)

/-- An integer up to `2 ^ 24` is a whole number of units in a format of at least 24 bits, so rounding leaves it. -/
theorem roundTo_intCast_of_geometry {fmt : FloatFmt} {prec : Nat} {emin emax : Int}
    (hfmt : fmtGeometry fmt = some (prec, emin, emax)) (hprec : 24 ≤ prec) (hemin : emin ≤ 0) (hemax : 24 < emax)
    {n : Int} (hn : n.natAbs ≤ 2 ^ 24) : roundTo fmt n = some (n : Rat) := by
  by_cases hzero : n = 0
  · subst hzero
    exact roundTo_zero fmt
  have hlog : n.natAbs.log2 < 25 := (Nat.log2_lt (by omega)).mpr (by omega)
  have hk : max (ilog2 n.natAbs 1) emin - (prec - 1) = (n.natAbs.log2 : Int) - (prec - 1) := by
    rw [ilog2_one (by omega), max_eq_left (by omega)]
  generalize hkdef : (n.natAbs.log2 : Int) - (prec - 1) = k at hk
  have hdvd : 2 ^ k.toNat ∣ n.natAbs * 2 ^ (-k).toNat := by
    have hunit : k.toNat = n.natAbs.log2 - (prec - 1) := by omega
    rw [hunit]
    exact (unit_dvd_of_le hn hprec).mul_right _
  have hinside : ¬(emax - (prec - 1) < k ∨ k = emax - (prec - 1) ∧
      2 ^ prec ≤ roundHalfEven (n.natAbs * 2 ^ (-k).toNat) (1 * 2 ^ k.toNat)) := by omega
  have hunits : n.sign * ((n.natAbs * 2 ^ (-k).toNat : Nat) : Int) = n * ((2 ^ (-k).toNat : Nat) : Int) := by
    rw [Nat.cast_mul, ← mul_assoc, Int.sign_mul_natAbs]
  rw [roundTo, hfmt]
  simp only [Rat.num_intCast, Rat.den_intCast, if_neg hzero, hk, if_neg hinside]
  rw [one_mul, roundHalfEven_of_dvd (by positivity) hdvd, Nat.div_mul_cancel hdvd, Rat.mkRat_eq_div, hunits,
    Int.cast_mul, Int.cast_natCast, mul_div_cancel_right₀ _ (by positivity)]

theorem roundTo_intCast (fmt : FloatFmt) {n : Int} (hn : n.natAbs ≤ 2 ^ 24) : roundTo fmt n = some (n : Rat) := by
  cases fmt with
  | exact => exact roundTo_exact n
  | binary32 => exact roundTo_intCast_of_geometry rfl (by decide) (by decide) (by decide) hn
  | binary64 => exact roundTo_intCast_of_geometry rfl (by decide) (by decide) (by decide) hn

/-- Settles O4: rounding leaves the product alone, and truncation too. -/
theorem roundedProductKeepsSmallIntegers : Obligations.RoundedProductKeepsSmallIntegers := by
  intro p v S n hrounded hprod hlo hhi
  have hscaled : scaledTrunc p v S = n := by
    have hexact : scaleRat S v = n := by rw [scaleRat_eq_mul]; exact_mod_cast hprod
    simp only [scaledTrunc, hrounded, hexact, roundTo_intCast p.floatFmt (n := n) (by omega), trunc_intCast]
  rw [quant, hscaled, wrap]

end Sys2Proof.Machine
end

section
/-! PROOF. The primitives on one byte, `CLR`, and an append read back (40_codec_primitives R91, R94, R96, R98, R99); the
test-only read of `BUF` (93 U6). -/

namespace Sys2Proof.Machine

/-! ### `CLR` and `APPEND_U8` -/

/-- Settles O5: `CLR` writes `CUR` and responds. -/
theorem clrResetsCursorOnly : Obligations.ClrResetsCursorOnly :=
  fun _ => ⟨_, rfl, rfl, fun _ => rfl, ⟨rfl, rfl⟩, rfl, rfl, rfl⟩

theorem exec_appendU8 (v : Int) (s : State) : exec (.appendU8 v) s = appendOp [BitVec.ofInt 8 v] s := by
  rw [exec, execAppendU8, beBytes_8, wrap]

/-- Settles O8: one byte fits exactly when `CUR` is at most 7. -/
theorem appendU8WritesOneByte : Obligations.AppendU8WritesOneByte := by
  intro s v
  rw [exec_appendU8]
  exact ⟨fun h => appendOp_appended (Nat.succ_le_succ h), fun h => appendOp_answered (Nat.succ_lt_succ h)⟩

/-! ### Reads of one byte -/

theorem exec_readI8 (bytes : List Byte) (offset : Nat) (s : State) :
    exec (.readI8 bytes offset) s = readOp (readI8 bytes offset) s := rfl

theorem exec_readU8 (bytes : List Byte) (offset : Nat) (s : State) :
    exec (.readU8 bytes offset) s = readOp ((readU8 bytes offset).map Int.ofNat) s := rfl

theorem i8Of_mem_range (b : Byte) : -128 ≤ i8Of b ∧ i8Of b ≤ 127 := by
  rw [← i8Of_eq]
  exact sext_mem_range (N := 7) _

/-- The word at one byte of the list is its number. -/
theorem memWord_one {bytes : List Byte} {offset : Nat} {b : Byte} (h : bytes[offset]? = some b) :
    memWord bytes offset 1 = BitVec.ofNat 8 (beUint [b]) := by
  obtain ⟨hlt, rfl⟩ := List.getElem?_eq_some_iff.mp h
  rw [memWord, List.drop_eq_getElem_cons hlt]
  rfl

theorem memRead_one {bytes : List Byte} {offset : Nat} {b : Byte} (h : bytes[offset]? = some b) :
    memRead bytes offset 1 = .ok (BitVec.ofNat 8 (beUint [b])) := by
  have hfits : offset + 1 ≤ bytes.length := (List.getElem?_eq_some_iff.mp h).1
  rw [memRead_fits hfits, memWord_one h]

theorem readI8_of_byte {bytes : List Byte} {offset : Nat} {b : Byte} (h : bytes[offset]? = some b) :
    readI8 bytes offset = .ok (i8Of b) := by
  rw [readI8, memRead_one h, ← i8Of_eq]
  rfl

theorem readU8_of_byte {bytes : List Byte} {offset : Nat} {b : Byte} (h : bytes[offset]? = some b) :
    readU8 bytes offset = .ok b.toNat := by
  rw [readU8, memRead_one h, ← u8Of_eq b]
  rfl

theorem readI8_outOfRange {bytes : List Byte} {offset : Nat} (h : bytes.length < offset + 1) :
    readI8 bytes offset = .error (.readOutOfRange offset) := by
  rw [readI8, memRead_outOfRange h]
  rfl

theorem readU8_outOfRange {bytes : List Byte} {offset : Nat} (h : bytes.length < offset + 1) :
    readU8 bytes offset = .error (.readOutOfRange offset) := by
  rw [readU8, memRead_outOfRange h]
  rfl

/-- Settles O10: the read is the signed integer of the byte, or the fault of the bounds check. -/
theorem readI8AnswersSignedByte : Obligations.ReadI8AnswersSignedByte := by
  intro s bytes offset
  rw [exec_readI8]
  exact ⟨fun b hb => ⟨readOp_answered_value (readI8_of_byte hb) s, i8Of_mem_range b⟩,
    fun h => readOp_answered_fault (readI8_outOfRange h) s⟩

/-- Settles O11: the read is the number of the byte, or the fault of the bounds check. -/
theorem readU8AnswersUnsignedByte : Obligations.ReadU8AnswersUnsignedByte := by
  intro s bytes offset
  rw [exec_readU8]
  exact ⟨fun b hb => readOp_answered_value (by rw [readU8_of_byte hb]; rfl) s,
    fun h => readOp_answered_fault (by rw [readU8_outOfRange h]; rfl) s⟩

/-! ### An append read back -/

/-- The two bytes of a 16-bit pattern are read as its signed value. -/
theorem i16Of_bytes (u : BitVec 16) : i16Of (u.extractLsb' 8 8) (u.extractLsb' 0 8) = sext u := by
  rw [← i16Of_eq, ← beBytes_16]
  exact congrArg sext (ofNat_beUint_beBytes (m := 2) u)

/-- Settles O12: the two bytes written at the old `CUR` are those of the pattern, which the read takes as signed. -/
theorem appendThenReadI16IsIdentity : Obligations.AppendThenReadI16IsIdentity := by
  intro s n hcur
  have hfits : s.cur.toNat + (i16Bytes n).length ≤ 8 := by rw [i16Bytes_length]; omega
  obtain ⟨t, hexec, ⟨hinside, -⟩, -⟩ := appendOp_appended hfits
  obtain ⟨u, hread, -, -, hresponses, -⟩ := readOp_answered_value
    (readI16_of_bytes (bytes := i16Bytes n) (offset := 0) rfl rfl) t
  rw [i16Of_bytes] at hresponses
  exact ⟨t, _, _, u, hexec, hinside 0 Nat.zero_lt_two, hinside 1 Nat.one_lt_two, hread, hresponses,
    fun hlo hhi => sext_wrap16 ⟨hlo, hhi⟩⟩

/-! ### The test-only read -/

/-- Settles O14: the read answers a byte only below `CUR` and only where one has been written. -/
theorem peekBeyondCursorFaults : Obligations.PeekBeyondCursorFaults := by
  intro s a h
  unfold peek
  rcases h with hbeyond | hunwritten
  · rw [if_neg (Nat.not_lt.mpr hbeyond)]
  · rw [hunwritten]
    exact ite_self _

end Sys2Proof.Machine
end

section
/-! PROOF. The commands as operations (41_command_encoder R111 to R121): what a command emits is the frame that the
layouts of the wire form give it, so it depends on the operands and the parameters alone. -/

namespace Sys2Proof.Machine

/-! ### The state after a frame has been sent -/

/-- `s` after a command that sent `f`: the payload in `BUF`, `CUR` its length, the frame on TX, the response ok. -/
def State.sendFrame (s : State) (f : Frame) : State :=
  (((s.setBuf (writeBytes s.buf 0 f.data)).setCur (BitVec.ofNat 4 f.data.length)).emitTx f).respond .ok

@[simp] theorem State.sendFrame_params (s : State) (f : Frame) : (s.sendFrame f).params = s.params := rfl
@[simp] theorem State.sendFrame_buf (s : State) (f : Frame) : (s.sendFrame f).buf = writeBytes s.buf 0 f.data := rfl
@[simp] theorem State.sendFrame_cur (s : State) (f : Frame) : (s.sendFrame f).cur = BitVec.ofNat 4 f.data.length := rfl
@[simp] theorem State.sendFrame_inputs (s : State) (f : Frame) : (s.sendFrame f).inputs = s.inputs := rfl
@[simp] theorem State.sendFrame_tx (s : State) (f : Frame) : (s.sendFrame f).tx = s.tx ++ [f] := rfl
@[simp] theorem State.sendFrame_tlm (s : State) (f : Frame) : (s.sendFrame f).tlm = s.tlm := rfl
@[simp] theorem State.sendFrame_responses (s : State) (f : Frame) :
    (s.sendFrame f).responses = s.responses ++ [.ok] := rfl

theorem command_sendFrame {k : Kind} {fields : List (List Byte)} {data : List Byte} (hdata : fields.flatten = data)
    (hlen : data.length = payloadLength k) (aid : BitVec aidBits) (s : State) :
    command k aid fields s = .next (s.sendFrame (commandFrame s.params k aid data)) := by
  subst hdata
  rw [command_next k aid fields s (hlen ▸ payloadLength_le k), commandFrame, ← hlen]
  rfl

theorem command_singleton_sendFrame {k : Kind} {data : List Byte} (hlen : data.length = payloadLength k)
    (aid : BitVec aidBits) (s : State) :
    command k aid [data] s = .next (s.sendFrame (commandFrame s.params k aid data)) :=
  command_sendFrame List.flatten_singleton hlen aid s

/-! ### A command and its encoding -/

/-- The byte of a mode is the mode. -/
theorem beBytes_wrap_mode (mode : BitVec 8) : beBytes (wrap 8 (mode.toNat : Int)) = [mode] := by
  rw [beBytes_8, wrap, BitVec.ofInt_natCast, BitVec.ofNat_toNat, BitVec.setWidth_eq]

/-- A command with a wire form sends the frame that the encoder writes from the layouts, from every state. -/
theorem exec_of_encodeFrame {i : Instr} {f : Frame} {s : State} (h : encodeFrame s.params i = some f) :
    exec i s = .next (s.sendFrame f) := by
  cases i with
  | duty aid _ =>
    cases h
    exact (exec_duty ..).trans (command_singleton_sendFrame (beBytes_length _) aid s)
  | current aid _ =>
    cases h
    exact (exec_current ..).trans (command_singleton_sendFrame (beBytes_length _) aid s)
  | currentBrake aid _ =>
    cases h
    exact (exec_currentBrake ..).trans (command_singleton_sendFrame (beBytes_length _) aid s)
  | velocity aid _ =>
    cases h
    exact (exec_velocity ..).trans (command_singleton_sendFrame (beBytes_length _) aid s)
  | position aid _ =>
    cases h
    exact (exec_position ..).trans (command_singleton_sendFrame (beBytes_length _) aid s)
  | setOrigin aid mode =>
    by_cases hmode : mode.toNat ≤ 2
    · rw [encodeFrame, if_pos hmode] at h
      cases h
      rw [exec_setOrigin_legal ((legalMode_iff mode).mpr hmode), beBytes_wrap_mode]
      exact command_singleton_sendFrame rfl aid s
    · rw [encodeFrame, if_neg hmode] at h
      cases h
  | positionProfile aid _ vlim alim =>
    cases h
    exact (exec_positionProfile ..).trans (command_sendFrame (positionProfile_fields _ vlim alim) rfl aid s)
  | _ => cases h

/-- Only the commands have a wire form. -/
theorem commandOf_of_encodeFrame {p : Params} {i : Instr} {f : Frame} (h : encodeFrame p i = some f) :
    ∃ k aid, commandOf i = some (k, aid) := by
  cases i with
  | duty _ _ | current _ _ | currentBrake _ _ | velocity _ _ | position _ _ => exact ⟨_, _, rfl⟩
  | setOrigin _ _ | positionProfile _ _ _ _ => exact ⟨_, _, rfl⟩
  | _ => cases h

/-- A command without a wire form is `SET_ORIGIN` with an illegal mode, which answers the fault. -/
theorem exec_of_not_encoded {i : Instr} {k : Kind} {aid : BitVec aidBits} {s : State}
    (hi : commandOf i = some (k, aid)) (h : encodeFrame s.params i = none) :
    ∃ mode : BitVec 8, 2 < mode.toNat ∧ i = .setOrigin aid mode ∧
      exec i s = .next (s.respond (.fault (.invalidParameter mode))) := by
  cases i with
  | setOrigin aid' mode =>
    obtain ⟨-, rfl⟩ : Kind.setOrigin = k ∧ aid' = aid := by simpa [commandOf] using hi
    have hmode : ¬mode.toNat ≤ 2 := fun hle => by
      rw [encodeFrame, if_pos hle] at h
      cases h
    exact ⟨mode, Nat.lt_of_not_le hmode, rfl, exec_setOrigin_illegal (by rwa [legalMode_iff]) _ s⟩
  | duty _ _ | current _ _ | currentBrake _ _ | velocity _ _ | position _ _ | positionProfile _ _ _ _ => cases h
  | _ => cases hi

/-- The frame a command adds to TX is its encoding. -/
theorem encodeFrame_of_emitted {i : Instr} {k : Kind} {aid : BitVec aidBits} {s t : State} {f : Frame}
    (hi : commandOf i = some (k, aid)) (he : exec i s = .next t) (htx : t.tx = s.tx ++ [f]) :
    encodeFrame s.params i = some f := by
  cases hencode : encodeFrame s.params i with
  | some g =>
    rw [exec_of_encodeFrame hencode] at he
    cases he
    simpa using htx
  | none =>
    obtain ⟨_, -, -, hfault⟩ := exec_of_not_encoded hi hencode
    rw [hfault] at he
    cases he
    simp at htx

/-! ### The obligations -/

/-- Settles O20: a legal mode is sent as the one byte of a frame. -/
theorem setOriginSendsLegalMode : Obligations.SetOriginSendsLegalMode := by
  intro s aid mode hmode
  obtain ⟨t, hnext, hsent⟩ := command_sent .setOrigin aid [beBytes (wrap 8 (mode.toNat : Int))] s (by simp)
  rw [List.flatten_singleton, beBytes_wrap_mode] at hsent
  exact ⟨t, (exec_setOrigin_legal ((legalMode_iff mode).mpr hmode) aid s).trans hnext, hsent⟩

/-- Settles O24: the emitted frame is the kind's frame, whose length the kind gives. -/
theorem emittedFrameShape : Obligations.EmittedFrameShape := by
  intro i k aid s t f hi he htx
  obtain ⟨data, hlen, rfl⟩ := emitted_eq_commandFrame hi he htx
  refine ⟨rfl, hlen.trans (payloadLength_toNat k).symm, ?_⟩
  cases k <;> rfl

/-- Settles O25: at equal scales the two commands send the same field, under the opcode of each. -/
theorem currentAndBrakeDifferInOpcodeOnly : Obligations.CurrentAndBrakeDifferInOpcodeOnly := by
  intro s aid val hscale
  have hbrake : encodeFrame s.params (.currentBrake aid val) =
      some (commandFrame s.params .currentBrake aid (beBytes (quant s.params val s.params.scaleCurrent))) := by
    rw [hscale]
    rfl
  exact ⟨_, _, _, exec_of_encodeFrame rfl, exec_of_encodeFrame hbrake, rfl, rfl, rfl, rfl, rfl⟩

/-- Settles O26: the emitted frame is the command's encoding, which reads the parameters alone. -/
theorem commandFrameForgetsState : Obligations.CommandFrameForgetsState := by
  intro i k aid s s' t f hi hparams he htx
  have hencode := encodeFrame_of_emitted hi he htx
  rw [hparams] at hencode
  exact ⟨_, exec_of_encodeFrame hencode, rfl⟩

/-- Settles O27: the command sends its encoding, whose payload of at most 8 bytes stands in `BUF` from 0 on. -/
theorem machineEmitsEncodedFrame : Obligations.MachineEmitsEncodedFrame := by
  intro i f s hencode
  have hexec := exec_of_encodeFrame hencode
  have hlen : f.data.length ≤ 8 := by
    obtain ⟨k, aid, hi⟩ := commandOf_of_encodeFrame hencode
    obtain ⟨data, hdata, rfl⟩ := emitted_eq_commandFrame hi hexec rfl
    exact hdata.trans_le (payloadLength_le k)
  refine ⟨_, hexec, rfl, ?_, fun a ha => ?_, rfl⟩
  · rw [State.sendFrame_cur, BitVec.toNat_ofNat]
    omega
  · rw [State.sendFrame_buf, bufRead_writeBytes, if_pos (by omega), Nat.sub_zero]

end Sys2Proof.Machine
end

section
/-! PROOF. The feedback decoder (42_feedback_decoder R140 to R145): the sample of an accepted frame, the frames that are
discarded, the bijection behind `UNPACK`; and a command's own frame handed back to the decoder (70_reset R205). -/

namespace Sys2Proof.Machine

/-! ### The sample of an accepted frame -/

theorem scaleSample_unpack (p : Params) (b0 b1 b2 b3 b4 b5 b6 b7 : Byte) :
    scaleSample p (unpack ⟨[b0, b1, b2, b3, b4, b5, b6, b7], rfl⟩) = sampleOf p b0 b1 b2 b3 b4 b5 b6 b7 := by
  rw [unpack_eq, scaleSample, sampleOf, scaleRat_eq_mul, scaleRat_eq_mul, scaleRat_eq_mul]

/-- Settles O29: the accepted frame's sample is that of its eight bytes, and emitting it and responding is all. -/
theorem feedbackEmitsExactSample : Obligations.FeedbackEmitsExactSample := by
  refine ⟨⟨Rat.mkRat_eq_div 1 10, rfl, Rat.mkRat_eq_div 1 100⟩, ?_⟩
  intro s expId f b0 b1 b2 b3 b4 b5 b6 b7 hide hdlc hid hdata
  have haccept : accept f expId = true := (accept_iff f expId).mpr ⟨hide, hdlc, hid⟩
  refine ⟨_, exec_decodeFeedback_accepted (rxd := ⟨[b0, b1, b2, b3, b4, b5, b6, b7], rfl⟩) haccept hdata, ?_,
    ⟨rfl, fun _ => rfl⟩, rfl, rfl, rfl, rfl⟩
  rw [scaleSample_unpack]
  rfl

/-- Settles O30: a frame that fails one of the three tests is not accepted. -/
theorem feedbackDiscardsOtherFrames : Obligations.FeedbackDiscardsOtherFrames := by
  intro s expId f hfail
  have hreject : ¬accept f expId = true := by
    rw [accept_iff]
    rintro ⟨hide, hdlc, hid⟩
    rcases hfail with h | h | h
    · rw [hide] at h
      cases h
    · exact h hdlc
    · exact h hid
  exact ⟨_, exec_decodeFeedback_discarded hreject, answered_respond s _⟩

/-- The filter compares the low byte of the identifier only. -/
theorem accept_congr_id {f : Frame} {id : BitVec idBits} (h : id.extractLsb' 0 8 = f.id.extractLsb' 0 8)
    (expId : BitVec aidBits) : accept { f with id := id } expId = accept f expId := by
  rw [Bool.eq_iff_iff, accept_iff, accept_iff, h]

/-- Settles O31: the identifier is read by the filter alone. -/
theorem feedbackIgnoresUpperIdentifier : Obligations.FeedbackIgnoresUpperIdentifier := by
  intro s expId f id h
  simp only [exec, execDecodeFeedback, accept_congr_id h]

/-! ### Payloads and raw records -/

theorem i8Of_eq_sext (b : Byte) : i8Of b = sext b := by
  rw [← i8Of_eq, beUint_singleton, BitVec.ofNat_toNat, BitVec.setWidth_eq]

theorem i16Bytes_i16Of (hi lo : Byte) : i16Bytes (i16Of hi lo) = [hi, lo] := by
  rw [← i16Of_eq, i16Bytes, sext, BitVec.ofInt_toInt]
  exact beBytes_ofNat_beUint (m := 2) rfl

/-- The payload of a raw record, field by field (30_encoding R67). -/
def packRaw (r : Raw) : FbPayload :=
  ⟨i16Bytes r.pos ++ i16Bytes r.vel ++ i16Bytes r.cur ++ [BitVec.ofInt 8 r.temp, BitVec.ofNat 8 r.err], rfl⟩

theorem fbPayload_eq_bytes (d : FbPayload) :
    ∃ b0 b1 b2 b3 b4 b5 b6 b7, d = ⟨[b0, b1, b2, b3, b4, b5, b6, b7], rfl⟩ := by
  obtain ⟨data, hlen⟩ := d
  match data, hlen with
  | [b0, b1, b2, b3, b4, b5, b6, b7], _ => exact ⟨b0, b1, b2, b3, b4, b5, b6, b7, rfl⟩

theorem packRaw_unpack (d : FbPayload) : packRaw (unpack d) = d := by
  obtain ⟨b0, b1, b2, b3, b4, b5, b6, b7, rfl⟩ := fbPayload_eq_bytes d
  apply Subtype.ext
  rw [unpack_eq, packRaw]
  simp only [i16Bytes_i16Of, i8Of_eq_sext, sext, BitVec.ofInt_toInt, BitVec.ofNat_toNat, BitVec.setWidth_eq]
  rfl

theorem unpack_packRaw {r : Raw} (h : rawInRange r) : unpack (packRaw r) = r := by
  obtain ⟨hpos, hvel, hcur, ⟨htlo, hthi⟩, herr⟩ := h
  have hp : sext (BitVec.ofInt 16 r.pos) = r.pos := sext_wrap16 hpos
  have hv : sext (BitVec.ofInt 16 r.vel) = r.vel := sext_wrap16 hvel
  have hc : sext (BitVec.ofInt 16 r.cur) = r.cur := sext_wrap16 hcur
  have ht : sext (BitVec.ofInt 8 r.temp) = r.temp := sext_wrap (N := 7) (by omega) (by omega)
  have he : (BitVec.ofNat 8 r.err).toNat = r.err := by rw [BitVec.toNat_ofNat]; omega
  refine (unpack_eq _ _ _ _ _ _ _ _).trans ?_
  rw [i16Of_bytes, i16Of_bytes, i16Of_bytes, i8Of_eq_sext, hp, hv, hc, ht, he]

theorem unpack_inRange (d : FbPayload) : rawInRange (unpack d) :=
  ⟨sext_mem_range (N := 15) _, sext_mem_range (N := 15) _, sext_mem_range (N := 15) _, sext_mem_range (N := 7) _,
    Nat.le_of_lt_succ (BitVec.isLt _)⟩

/-- The raw record stands in the sample unchanged. -/
theorem scaleSample_injective (p : Params) : Function.Injective (scaleSample p) := by
  rintro ⟨pos, vel, cur, temp, err⟩ ⟨pos', vel', cur', temp', err'⟩ h
  obtain ⟨rfl, rfl, rfl, rfl, rfl, -⟩ := (Sample.mk.injEq ..).mp h
  rfl

/-- Settles O32: `packRaw` is the inverse of `UNPACK` on the records in range. -/
theorem unpackIsBijection : Obligations.UnpackIsBijection := by
  refine ⟨unpack_inRange, fun r hr => ⟨packRaw r, unpack_packRaw hr, fun d hd => ?_⟩,
    fun p _ _ => (scaleSample_injective p).eq_iff⟩
  rw [← hd, packRaw_unpack]

/-! ### The ranges of a sample -/

theorem sampleShape_scaleSample (p : Params) {r : Raw} (h : rawInRange r) : sampleShape p (scaleSample p r) := by
  obtain ⟨hpos, hvel, hcur, htemp, herr⟩ := h
  exact ⟨hpos, hvel, hcur, htemp, herr, scaleRat_eq_mul _ _, scaleRat_eq_mul _ _, scaleRat_eq_mul _ _⟩

/-- A sample added to TLM is the scaled record of some payload: only `Effect.sampled` lengthens TLM. -/
theorem emitted_sample {i : Instr} {s t : State} {x : Sample} (he : exec i s = .next t) (htlm : t.tlm = s.tlm ++ [x]) :
    ∃ rxd, x = scaleSample s.params (unpack rxd) := by
  cases exec_effect he with
  | cleared _ => simp at htlm
  | appended _ _ _ _ _ => simp at htlm
  | answered _ _ => simp at htlm
  | sent _ _ _ _ _ => simp at htlm
  | sampled _ _ rxd _ _ _ => exact ⟨rxd, by simpa using htlm.symm⟩

theorem sampleShape_of_emitted {i : Instr} {s t : State} {x : Sample} (he : exec i s = .next t)
    (htlm : t.tlm = s.tlm ++ [x]) : sampleShape s.params x := by
  obtain ⟨rxd, rfl⟩ := emitted_sample he htlm
  exact sampleShape_scaleSample s.params (unpack_inRange rxd)

theorem intCast_mem_range {n lo hi : Int} (h : lo ≤ n ∧ n ≤ hi) : (lo : Rat) ≤ n ∧ (n : Rat) ≤ hi :=
  ⟨by exact_mod_cast h.1, by exact_mod_cast h.2⟩

/-- Settles O33: the sample is a scaled record in range, and the physical ranges are the raw ranges times the factors. -/
theorem emittedSampleRanges : Obligations.EmittedSampleRanges := by
  intro i s t x he htlm
  have hshape := sampleShape_of_emitted he htlm
  refine ⟨hshape, fun hlp hlv hlc => ?_⟩
  obtain ⟨hpos, hvel, hcur, -, -, hposition, hvelocity, hcurrent⟩ := hshape
  rw [hposition, hvelocity, hcurrent, hlp, hlv, hlc]
  obtain ⟨hplo, hphi⟩ := intCast_mem_range hpos
  obtain ⟨hvlo, hvhi⟩ := intCast_mem_range hvel
  obtain ⟨hclo, hchi⟩ := intCast_mem_range hcur
  push_cast at hplo hphi hvlo hvhi hclo hchi
  refine ⟨⟨?_, ?_⟩, ⟨?_, ?_⟩, ⟨?_, ?_⟩⟩ <;> linarith

/-! ### A command's own frame -/

/-- Two adjacent bytes of a pattern are read as the signed value of the 16 bits they make up. -/
theorem i16Of_extractLsb' {w : Nat} (u : BitVec w) (start : Nat) :
    i16Of (u.extractLsb' (start + 8) 8) (u.extractLsb' start 8) = (u.extractLsb' start 16).toInt := by
  have hhi : (u.extractLsb' start 16).extractLsb' 8 8 = u.extractLsb' (start + 8) 8 := by
    ext j hj
    simp only [BitVec.getElem_extractLsb', BitVec.getLsbD_extractLsb', Nat.add_assoc]
    simp [show 8 + j < 16 by omega]
  have hlo : (u.extractLsb' start 16).extractLsb' 0 8 = u.extractLsb' start 8 := by
    ext j hj
    simp only [BitVec.getElem_extractLsb', BitVec.getLsbD_extractLsb', Nat.zero_add]
    simp [show j < 16 by omega]
  rw [← hhi, ← hlo, i16Of_bytes, sext]

/-- The payload of a position profile as raw telemetry fields. -/
theorem unpack_profile (q : BitVec 32) (v a : BitVec 16) : unpack ⟨beBytes q ++ beBytes v ++ beBytes a, rfl⟩ =
    { pos := (q.extractLsb' 16 16).toInt, vel := (q.extractLsb' 0 16).toInt, cur := v.toInt,
      temp := (a.extractLsb' 8 8).toInt, err := (a.extractLsb' 0 8).toNat } := by
  refine (unpack_eq _ _ _ _ _ _ _ _).trans ?_
  rw [i16Of_extractLsb' q 16, i16Of_extractLsb' q 0, i16Of_bytes v, i8Of_eq_sext, sext, sext]

/-- A position profile's frame passes the filter under its own actuator id. -/
theorem exec_decodeFeedback_profile (p : Params) (aid : BitVec aidBits) (q : BitVec 32) (v a : BitVec 16) (s : State) :
    exec (.decodeFeedback aid (commandFrame p .positionProfile aid (beBytes q ++ beBytes v ++ beBytes a))) s =
      .next ((s.emitTlm (scaleSample s.params
        { pos := (q.extractLsb' 16 16).toInt, vel := (q.extractLsb' 0 16).toInt, cur := v.toInt,
          temp := (a.extractLsb' 8 8).toInt, err := (a.extractLsb' 0 8).toNat })).respond .ok) := by
  rw [← unpack_profile]
  exact exec_decodeFeedback_accepted ((accept_iff _ _).mpr ⟨rfl, rfl, identifier_actuator _ _⟩) rfl

/-- Settles O34: the eight bytes of the frame are those of `Q` and of the two limits. -/
theorem profileFrameLoopsBackAsTelemetry : Obligations.ProfileFrameLoopsBackAsTelemetry :=
  fun s aid _ _ _ => ⟨_, _, _, _, exec_of_encodeFrame rfl, rfl, exec_decodeFeedback_profile s.params aid _ _ _ _, rfl,
    rfl, rfl, rfl, rfl, rfl⟩

theorem dlc_ne_eight {k : Kind} (hk : k ≠ .positionProfile) : BitVec.ofNat 4 (payloadLength k) ≠ 8 := by
  cases k with
  | positionProfile => exact absurd rfl hk
  | _ => decide

/-- Settles O35: only a position profile's frame has the length 8 that the filter asks for. -/
theorem otherFramesDoNotLoopBack : Obligations.OtherFramesDoNotLoopBack := by
  intro i k aid expId s t f hi hk he htx
  obtain ⟨data, -, rfl⟩ := emitted_eq_commandFrame hi he htx
  have hreject : ¬accept (commandFrame s.params k aid data) expId = true := fun haccept =>
    dlc_ne_eight hk ((accept_iff _ _).mp haccept).2.1
  exact ⟨_, exec_decodeFeedback_discarded hreject, answered_respond t _⟩

end Sys2Proof.Machine
end

section
/-! PROOF. What holds of every operation (10_state R20 to R31, 60_exceptions R160 to R163): the response, the faults, the
ports it may use, and the independence of the two paths. -/

namespace Sys2Proof.Machine

/-! ### Responses and ports -/

/-- Settles O36: every effect ends in one response and writes neither the parameters nor the inputs. -/
theorem everyOperationAnswersOnce : Obligations.EveryOperationAnswersOnce := by
  intro i s t he
  cases exec_effect he with
  | cleared _ => exact ⟨⟨.ok, rfl⟩, rfl, rfl⟩
  | appended _ _ _ _ _ => exact ⟨⟨.ok, rfl⟩, rfl, rfl⟩
  | answered r _ => exact ⟨⟨r, rfl⟩, rfl, rfl⟩
  | sent _ _ _ _ _ => exact ⟨⟨.ok, rfl⟩, rfl, rfl⟩
  | sampled _ _ _ _ _ _ => exact ⟨⟨.ok, rfl⟩, rfl, rfl⟩

theorem exec_params {i : Instr} {s t : State} (he : exec i s = .next t) : t.params = s.params :=
  (everyOperationAnswersOnce i s t he).2.1

/-- Settles O37: of the effects only `Effect.answered` responds with a fault, and answering is all it does. -/
theorem faultLeavesNoOtherTrace : Obligations.FaultLeavesNoOtherTrace := by
  intro i s t f he hr
  cases exec_effect he with
  | cleared _ => simp at hr
  | appended _ _ _ _ _ => simp at hr
  | answered r _ =>
    obtain rfl : r = .fault f := by simpa using hr
    rfl
  | sent _ _ _ _ _ => simp at hr
  | sampled _ _ _ _ _ _ => simp at hr

theorem commandOf_writesBuffer {i : Instr} {k : Kind} {aid : BitVec aidBits} (h : commandOf i = some (k, aid)) :
    writesBuffer i = true := by
  cases i with
  | decodeFeedback _ _ | readI16Be _ _ | readI8 _ _ | readU8 _ _ => cases h
  | _ => rfl

/-- Settles O39: only `Effect.sent` adds a frame, only `Effect.sampled` a sample, and the effects that write `BUF` or
`CUR` are those of the transmit path. -/
theorem onlyItsOwnPathEmits : Obligations.OnlyItsOwnPathEmits := by
  intro i s t he
  cases exec_effect he with
  | cleared hi => exact ⟨.inl rfl, .inl rfl, fun hw => by rw [hi] at hw; cases hw⟩
  | appended _ _ hwrites _ _ => exact ⟨.inl rfl, .inl rfl, fun hw => by rw [hwrites] at hw; cases hw⟩
  | answered _ _ => exact ⟨.inl rfl, .inl rfl, fun _ => ⟨rfl, rfl⟩⟩
  | sent k aid _ hi _ =>
    exact ⟨.inr ⟨⟨k, aid, hi⟩, _, rfl⟩, .inl rfl, fun hw => by rw [commandOf_writesBuffer hi] at hw; cases hw⟩
  | sampled expId f _ hi _ _ => exact ⟨.inl rfl, .inr ⟨⟨expId, f, hi⟩, _, rfl⟩, fun _ => ⟨rfl, rfl⟩⟩

/-! ### Which operation answers which fault -/

theorem readOp_fault {r : Except FaultCause Int} {s t : State} {f : FaultCause} (he : readOp r s = .next t)
    (hr : t.responses = s.responses ++ [.fault f]) : r = .error f := by
  rcases readOp_cases r s with ⟨n, -, e⟩ | ⟨g, hg, e⟩
  · rw [e] at he
    cases he
    simp at hr
  · rw [e] at he
    cases he
    obtain rfl : g = f := by simpa using hr
    exact hg

theorem appendOp_fault {bs : List Byte} {s t : State} {f : FaultCause} (he : appendOp bs s = .next t)
    (hr : t.responses = s.responses ++ [.fault f]) : f = .bufferOverflow s.cur ∧ 8 < s.cur.toNat + bs.length := by
  rcases appendOp_cases bs s with ⟨-, e⟩ | ⟨hover, e⟩
  · rw [e] at he
    cases he
    simp at hr
  · rw [e] at he
    cases he
    exact ⟨by simpa using hr.symm, hover⟩

theorem command_fault {i : Instr} {k : Kind} {aid : BitVec aidBits} {s t : State} {f : FaultCause}
    (hi : commandOf i = some (k, aid)) (he : exec i s = .next t) (hr : t.responses = s.responses ++ [.fault f]) :
    ∃ aid' mode, i = .setOrigin aid' mode ∧ 2 < mode.toNat ∧ f = .invalidParameter mode := by
  cases hencode : encodeFrame s.params i with
  | some g =>
    rw [exec_of_encodeFrame hencode] at he
    cases he
    simp at hr
  | none =>
    obtain ⟨mode, hmode, rfl, hexec⟩ := exec_of_not_encoded hi hencode
    rw [hexec] at he
    cases he
    exact ⟨_, mode, rfl, hmode, by simpa using hr.symm⟩

/-- A read of `n` bytes fails only beyond its list. -/
theorem memRead_error {bytes : List Byte} {offset n : Nat} {f : FaultCause} (h : memRead bytes offset n = .error f) :
    f = .readOutOfRange offset ∧ bytes.length < offset + n := by
  rcases Nat.lt_or_ge bytes.length (offset + n) with hout | hfits
  · rw [memRead_outOfRange hout] at h
    cases h
    exact ⟨rfl, hout⟩
  · rw [memRead_fits hfits] at h
    cases h

theorem except_map_error {α β : Type} {g : α → β} {r : Except FaultCause α} {f : FaultCause}
    (h : r.map g = .error f) : r = .error f := by
  cases r with
  | ok a => cases h
  | error e => cases h; rfl

/-- A decode that answers responds `ok` or `discard`. -/
theorem decodeFeedback_not_fault {expId : BitVec aidBits} {g : Frame} {s t : State} {f : FaultCause}
    (he : exec (.decodeFeedback expId g) s = .next t) : t.responses ≠ s.responses ++ [.fault f] := by
  change execDecodeFeedback expId g s = .next t at he
  rcases execDecodeFeedback_cases expId g s with ⟨-, _, -, e⟩ | ⟨-, -, e⟩ | ⟨-, e⟩
  · rw [e] at he
    cases he
    simp
  · rw [e] at he
    cases he
  · rw [e] at he
    cases he
    simp

/-- Settles O38: a command faults only without a wire form, an append only where it does not fit, a read only where its
`MEM_READ` does; `CLR` and the decode answer no fault. -/
theorem faultsBelongToTheirOperations : Obligations.FaultsBelongToTheirOperations := by
  intro i s t f he hr
  cases i with
  | duty _ _ | current _ _ | currentBrake _ _ | velocity _ _ | position _ _ | setOrigin _ _ | positionProfile _ _ _ _ =>
    obtain ⟨aid, mode, hi, hmode, rfl⟩ := command_fault rfl he hr
    exact ⟨aid, hi, hmode⟩
  | decodeFeedback expId g =>
    exact (decodeFeedback_not_fault he hr).elim
  | clr =>
    cases he
    simp at hr
  | appendI32Be v =>
    obtain ⟨rfl, hover⟩ := appendOp_fault he hr
    exact ⟨rfl, .inl ⟨v, rfl, hover⟩⟩
  | appendI16Be v =>
    obtain ⟨rfl, hover⟩ := appendOp_fault he hr
    exact ⟨rfl, .inr (.inl ⟨v, rfl, hover⟩)⟩
  | appendU8 v =>
    obtain ⟨rfl, hover⟩ := appendOp_fault he hr
    exact ⟨rfl, .inr (.inr ⟨v, rfl, hover⟩)⟩
  | readI16Be bytes offset =>
    obtain ⟨rfl, hout⟩ := memRead_error (except_map_error (readOp_fault he hr))
    exact ⟨bytes, .inl ⟨rfl, hout⟩⟩
  | readI8 bytes offset =>
    obtain ⟨rfl, hout⟩ := memRead_error (except_map_error (readOp_fault he hr))
    exact ⟨bytes, .inr (.inl ⟨rfl, hout⟩)⟩
  | readU8 bytes offset =>
    obtain ⟨rfl, hout⟩ := memRead_error (except_map_error (except_map_error (readOp_fault he hr)))
    exact ⟨bytes, .inr (.inr ⟨rfl, hout⟩)⟩

theorem exec_ne_fault (i : Instr) (s : State) (r : Fault) : exec i s ≠ .fault r := by
  intro h
  rcases exec_cases i s with ⟨t, e, -⟩ | ⟨_, _, -, -, -, e⟩ <;> rw [e] at h <;> cases h

/-- Settles O40: no operation stops with a fault, and a step stops only where its operation does. -/
theorem noOperationReadsUnspecifiedByte : Obligations.NoOperationReadsUnspecifiedByte := by
  refine fun s r => ⟨fun i => exec_ne_fault i s r, fun h => ?_⟩
  unfold step at h
  cases hfetch : fetch s with
  | idle => rw [hfetch] at h; cases h
  | done t => rw [hfetch] at h; cases h
  | refuse e => rw [hfetch] at h; cases h
  | run i t => rw [hfetch] at h; exact exec_ne_fault i t r h

/-! ### The two paths -/

/-- `u` after an operation of the transmit path: what it writes and adds. -/
def State.transmit (u : State) (m : Memory) (c : BitVec 4) (fs : List Frame) (r : Response) : State :=
  { u with buf := m, cur := c, tx := u.tx ++ fs, responses := u.responses ++ [r] }

/-- `u` after an operation outside the transmit path: what it adds. -/
def State.receive (u : State) (xs : List Sample) (r : Response) : State :=
  { u with tlm := u.tlm ++ xs, responses := u.responses ++ [r] }

theorem respond_eq_transmit {s u : State} (hb : u.buf = s.buf) (hc : u.cur = s.cur) (r : Response) :
    u.respond r = u.transmit s.buf s.cur [] r :=
  State.ext_fields rfl hb hc rfl (List.append_nil _).symm rfl rfl

theorem respond_eq_receive (u : State) (r : Response) : u.respond r = u.receive [] r :=
  State.ext_fields rfl rfl rfl rfl rfl (List.append_nil _).symm rfl

theorem sendFrame_eq_transmit {s u : State} (hb : u.buf = s.buf) (f : Frame) :
    u.sendFrame f = u.transmit (writeBytes s.buf 0 f.data) (BitVec.ofNat 4 f.data.length) [f] .ok := by
  rw [← hb]
  rfl

/-- What an append does depends on `BUF` and `CUR` alone. -/
theorem appendOp_transmit (bs : List Byte) (s : State) :
    ∃ m c r, ∀ u : State, u.buf = s.buf → u.cur = s.cur → appendOp bs u = .next (u.transmit m c [] r) := by
  rcases Nat.lt_or_ge 8 (s.cur.toNat + bs.length) with hover | hfits
  · refine ⟨s.buf, s.cur, .fault (.bufferOverflow s.cur), fun u hb hc => ?_⟩
    rw [appendOp, append_overflow (hc ▸ hover), ← respond_eq_transmit hb hc, ← hc]
    rfl
  · refine ⟨writeBytes s.buf s.cur.toNat bs, s.cur + BitVec.ofNat 4 bs.length, .ok, fun u hb hc => ?_⟩
    rw [appendOp, append_fits (hc ▸ hfits), hb, hc]
    exact congrArg Host.Outcome.next (State.ext_fields rfl rfl rfl rfl (List.append_nil _).symm rfl rfl)

/-- What a command does depends on the parameters, `BUF` and `CUR` alone. -/
theorem command_transmit {i : Instr} {k : Kind} {aid : BitVec aidBits} (hi : commandOf i = some (k, aid)) (s : State) :
    ∃ m c fs r, ∀ u : State, u.params = s.params → u.buf = s.buf → u.cur = s.cur →
      exec i u = .next (u.transmit m c fs r) := by
  cases hencode : encodeFrame s.params i with
  | some f =>
    refine ⟨writeBytes s.buf 0 f.data, BitVec.ofNat 4 f.data.length, [f], .ok, fun u hp hb _ => ?_⟩
    rw [← hp] at hencode
    rw [exec_of_encodeFrame hencode, sendFrame_eq_transmit hb]
  | none =>
    obtain ⟨mode, hmode, rfl, -⟩ := exec_of_not_encoded hi hencode
    have hillegal : ¬legalMode mode = true := by rw [legalMode_iff]; omega
    refine ⟨s.buf, s.cur, [], .fault (.invalidParameter mode), fun u _ hb hc => ?_⟩
    rw [exec_setOrigin_illegal hillegal, respond_eq_transmit hb hc]

/-- What an operation of the transmit path does depends on the parameters, `BUF` and `CUR` alone. -/
theorem exec_transmit {i : Instr} (hi : writesBuffer i = true) (s : State) :
    ∃ m c fs r, ∀ u : State, u.params = s.params → u.buf = s.buf → u.cur = s.cur →
      exec i u = .next (u.transmit m c fs r) := by
  cases i with
  | duty _ _ | current _ _ | currentBrake _ _ | velocity _ _ | position _ _ => exact command_transmit rfl s
  | setOrigin _ _ | positionProfile _ _ _ _ => exact command_transmit rfl s
  | clr =>
    refine ⟨s.buf, 0, [], .ok, fun u _ hb _ => congrArg Host.Outcome.next ?_⟩
    exact State.ext_fields rfl hb rfl rfl (List.append_nil _).symm rfl rfl
  | appendI32Be v =>
    obtain ⟨m, c, r, h⟩ := appendOp_transmit (beBytes (wrap 32 v)) s
    exact ⟨m, c, [], r, fun u _ => h u⟩
  | appendI16Be v =>
    obtain ⟨m, c, r, h⟩ := appendOp_transmit (beBytes (wrap 16 v)) s
    exact ⟨m, c, [], r, fun u _ => h u⟩
  | appendU8 v =>
    obtain ⟨m, c, r, h⟩ := appendOp_transmit (beBytes (wrap 8 v)) s
    exact ⟨m, c, [], r, fun u _ => h u⟩
  | decodeFeedback _ _ | readI16Be _ _ | readI8 _ _ | readU8 _ _ => cases hi

theorem readOp_receive (r : Except FaultCause Int) : ∃ q, ∀ u : State, readOp r u = .next (u.receive [] q) := by
  cases r with
  | ok n => exact ⟨.value n, fun u => congrArg Host.Outcome.next (respond_eq_receive u _)⟩
  | error f => exact ⟨.fault f, fun u => congrArg Host.Outcome.next (respond_eq_receive u _)⟩

/-- What an operation outside the transmit path does depends on the parameters alone. -/
theorem exec_receive {j : Instr} (hj : writesBuffer j = false) {s t : State} (he : exec j s = .next t) :
    ∃ xs r, ∀ u : State, u.params = s.params → exec j u = .next (u.receive xs r) := by
  cases j with
  | decodeFeedback expId f =>
    by_cases haccept : accept f expId = true
    · rcases fbPayload_cases f.data with ⟨rxd, hdata, -⟩ | ⟨-, hnone⟩
      · refine ⟨[scaleSample s.params (unpack rxd)], .ok, fun u hp => ?_⟩
        rw [exec_decodeFeedback_accepted haccept hdata, hp]
        rfl
      · rw [exec, execDecodeFeedback, if_pos haccept, hnone] at he
        cases he
    · refine ⟨[], .discard, fun u _ => ?_⟩
      rw [exec_decodeFeedback_discarded haccept, respond_eq_receive]
  | readI16Be bytes offset =>
    obtain ⟨q, h⟩ := readOp_receive (readI16 bytes offset)
    exact ⟨[], q, fun u _ => h u⟩
  | readI8 bytes offset =>
    obtain ⟨q, h⟩ := readOp_receive (readI8 bytes offset)
    exact ⟨[], q, fun u _ => h u⟩
  | readU8 bytes offset =>
    obtain ⟨q, h⟩ := readOp_receive ((readU8 bytes offset).map Int.ofNat)
    exact ⟨[], q, fun u _ => h u⟩
  | _ => cases hj

/-- Settles O41: neither operation writes what the other one depends on. -/
theorem pathsAreIndependent : Obligations.PathsAreIndependent := by
  intro i j s a b hi hj hea heb
  obtain ⟨m, c, fs, r, hexec_i⟩ := exec_transmit hi s
  obtain ⟨xs, q, hexec_j⟩ := exec_receive hj heb
  rw [hexec_i s rfl rfl rfl] at hea
  cases hea
  rw [hexec_j _ rfl] at heb
  cases heb
  exact ⟨_, _, hexec_j s rfl, hexec_i _ rfl rfl rfl, rfl, rfl, rfl, rfl, rfl, rfl⟩

end Sys2Proof.Machine
end

section
/-! PROOF. The step, the reset event and the invariant of the machine (10_state R22, R26, R34, R35, 70_reset R200 to
R202). -/

namespace Sys2Proof.Machine

/-! ### What a step runs -/

theorem fetch_idle {s : State} (h : s.inputs = []) : fetch s = .idle := by
  unfold fetch
  rw [h]

theorem fetch_reset {s : State} {rest : List Input} (h : s.inputs = .reset :: rest) :
    fetch s = .done (resetEvent (s.setInputs rest)) := by
  unfold fetch
  rw [h]

theorem fetch_op {s : State} {r : Request} {rest : List Input} (h : s.inputs = .op r :: rest) :
    fetch s = fetchRequest r (s.setInputs rest) := by
  unfold fetch
  rw [h]

theorem step_of_run {s t : State} {i : Instr} (h : fetch s = .run i t) : step s = exec i t := by rw [step, h]

theorem step_of_done {s t : State} (h : fetch s = .done t) : step s = .next t := by rw [step, h]

theorem step_of_refuse {s : State} {e : Refusal} (h : fetch s = .refuse e) : step s = .refused e := by rw [step, h]

theorem step_of_idle {s : State} (h : fetch s = .idle) : step s = .next s := by rw [step, h]

theorem fetchRequest_ok {r : Request} {i : Instr} {s : State} (hdecode : decodeRequest r = .ok i)
    (hwf : i.wellFormed s.params = true) : fetchRequest r s = .run i s := by
  rw [fetchRequest, hdecode]
  exact if_pos hwf

theorem fetchRequest_invalidKind {r : Request} {code : BitVec 3} (hdecode : decodeRequest r = .error (.invalidKind code))
    (s : State) : fetchRequest r s = .done (s.respond (.fault (.invalidKind code))) := by
  rw [fetchRequest, hdecode]

theorem fetchRequest_nonFinite {r : Request} (hdecode : decodeRequest r = .error .nonFinite) (s : State) :
    fetchRequest r s = .refuse .nonFinite := by
  rw [fetchRequest, hdecode]

/-- Settles O42: the record decodes to the instruction, which the port takes. -/
theorem stepRunsPresentedOperation : Obligations.StepRunsPresentedOperation :=
  fun _ _ _ _ hinputs hdecode hwf => step_of_run ((fetch_op hinputs).trans (fetchRequest_ok hdecode hwf))

/-- Settles O43: no kind has the code 7, whatever stands in the other fields. -/
theorem kindSevenIsInvalid : Obligations.KindSevenIsInvalid :=
  fun _ _ _ _ _ _ _ hinputs =>
    ⟨_, step_of_done ((fetch_op hinputs).trans (fetchRequest_invalidKind rfl _)), answered_respond _ _⟩

theorem withNum_nonFinite {val : HostNum} (h : hostNum val = none) (mk : FcNum → Instr) :
    withNum val mk = .error .nonFinite := by
  rw [withNum, h]

/-- A kind other than SetOrigin takes `VAL` across the boundary. -/
theorem decodeCmd_nonFinite {k : Kind} (hk : k ≠ .setOrigin) {val : HostNum} (h : hostNum val = none)
    (aid : BitVec aidBits) (mode : BitVec 8) (vlim alim : Int) :
    decodeCmd k aid val mode vlim alim = .error .nonFinite := by
  cases k with
  | setOrigin => exact absurd rfl hk
  | _ => exact withNum_nonFinite h _

theorem exists_kindOfCode {code : BitVec 3} (h : code.toNat ≠ 7) :
    ∃ k, kindOfCode code = some k ∧ codeOfKind k = code := by
  revert code
  decide

/-- Settles O44: the codes other than 5 and 7 are those of the kinds that use `VAL`; 5 is SetOrigin's. -/
theorem boundaryRefusesNonFinite : Obligations.BoundaryRefusesNonFinite := by
  intro s code aid val mode vlim alim rest hinputs hval
  constructor
  · intro hfive hseven
    obtain ⟨k, hkind, hcode⟩ := exists_kindOfCode hseven
    have hk : k ≠ .setOrigin := by
      rintro rfl
      exact hfive (congrArg BitVec.toNat hcode).symm
    have hdecode : decodeRequest (.cmd code aid val mode vlim alim) = .error .nonFinite := by
      rw [decodeRequest, hkind]
      exact decodeCmd_nonFinite hk hval ..
    exact step_of_refuse ((fetch_op hinputs).trans (fetchRequest_nonFinite hdecode _))
  · intro hfive
    obtain rfl : code = 5 := BitVec.eq_of_toNat_eq hfive
    exact stepRunsPresentedOperation s _ rest (.setOrigin aid mode) hinputs rfl rfl

/-- Settles O45: the fetch finds nothing. -/
theorem idleStepChangesNothing : Obligations.IdleStepChangesNothing :=
  fun _ h => step_of_idle (fetch_idle h)

/-- Settles O55, one constructor at a time. -/
theorem everyOperationIsSelectable : Obligations.EveryOperationIsSelectable := fun i =>
  match i with
  | .duty aid val => Laws.RequestRoundTrip.duty aid val
  | .current aid val => Laws.RequestRoundTrip.current aid val
  | .currentBrake aid val => Laws.RequestRoundTrip.currentBrake aid val
  | .velocity aid val => Laws.RequestRoundTrip.velocity aid val
  | .position aid val => Laws.RequestRoundTrip.position aid val
  | .setOrigin aid mode => Laws.RequestRoundTrip.setOrigin aid mode
  | .positionProfile aid val vlim alim => Laws.RequestRoundTrip.positionProfile aid val vlim alim
  | .decodeFeedback expId frame => Laws.RequestRoundTrip.decodeFeedback expId frame
  | .clr => Laws.RequestRoundTrip.clr
  | .appendI32Be value => Laws.RequestRoundTrip.appendI32Be value
  | .appendI16Be value => Laws.RequestRoundTrip.appendI16Be value
  | .appendU8 value => Laws.RequestRoundTrip.appendU8 value
  | .readI16Be bytes offset => Laws.RequestRoundTrip.readI16Be bytes offset
  | .readI8 bytes offset => Laws.RequestRoundTrip.readI8 bytes offset
  | .readU8 bytes offset => Laws.RequestRoundTrip.readU8 bytes offset

/-! ### Reset -/

/-- Settles O46: the reset event writes `BUF` and `CUR` only. -/
theorem resetEventClearsBuffer : Obligations.ResetEventClearsBuffer :=
  fun _ _ hinputs => ⟨_, step_of_done (fetch_reset hinputs), rfl, fun _ => rfl, ⟨rfl, rfl⟩, rfl, rfl, rfl⟩

/-- Settles O47: each field of the reset state is empty as written. -/
theorem resetStateIsEmpty : Obligations.ResetStateIsEmpty :=
  ⟨rfl, fun _ => rfl, rfl, rfl, rfl, rfl⟩

/-- Settles O48: the two fractions are written with `mkRat` in the model. -/
theorem resetScalesAreTheSources : Obligations.ResetScalesAreTheSources :=
  ⟨rfl, rfl, rfl, rfl, rfl, Rat.mkRat_eq_div 1 10, rfl, Rat.mkRat_eq_div 1 100⟩

/-! ### The invariant -/

/-- The invariant reads neither the inputs nor the responses. -/
theorem StateInv.congr {s t : State} (hs : StateInv s) (hparams : t.params = s.params) (hbuf : t.buf = s.buf)
    (hcur : t.cur = s.cur) (htx : t.tx = s.tx) (htlm : t.tlm = s.tlm) : StateInv t := by
  unfold StateInv payloadWritten
  rw [hparams, hbuf, hcur, htx, htlm]
  exact hs

theorem payloadWritten_of_cur_zero {s : State} (h : s.cur = 0) : payloadWritten s := by
  intro a ha
  rw [h] at ha
  exact absurd ha (Nat.not_lt_zero a)

/-- Settles O49: nothing is in `BUF`, nothing below `CUR`, nothing on a port. -/
theorem resetMeetsInvariant : Obligations.ResetMeetsInvariant := by
  refine ⟨reset_memoryWf, Nat.zero_le _, payloadWritten_of_cur_zero rfl, fun _ h => ?_, fun _ h => ?_⟩
  · cases h
  · cases h

theorem StateInv.resetEvent {s : State} (hs : StateInv s) : StateInv (resetEvent s) := by
  obtain ⟨-, -, -, htx, htlm⟩ := hs
  exact ⟨resetEvent_memoryWf s, Nat.zero_le _, payloadWritten_of_cur_zero rfl, htx, htlm⟩

theorem StateInv.setCur_zero {s : State} (hs : StateInv s) : StateInv (s.setCur 0) := by
  obtain ⟨hbuf, -, -, htx, htlm⟩ := hs
  exact ⟨hbuf, Nat.zero_le _, payloadWritten_of_cur_zero rfl, htx, htlm⟩

/-- Writing a byte list at `addr` and leaving `CUR` at its end keeps the invariant when every byte below `addr` has been
written. -/
theorem StateInv.write {s : State} (hs : StateInv s) {addr : Nat} (haddr : addr ≤ s.cur.toNat) {bs : List Byte}
    (hfits : addr + bs.length ≤ maxDlc) {c : BitVec 4} (hc : c.toNat = addr + bs.length) :
    StateInv ((s.setBuf (writeBytes s.buf addr bs)).setCur c) := by
  obtain ⟨hbuf, -, hwritten, htx, htlm⟩ := hs
  refine ⟨writeBytes_wf bs hbuf hfits, hc.trans_le hfits, fun a ha => ?_, htx, htlm⟩
  rw [State.setCur_cur, hc] at ha
  rw [State.setCur_buf, State.setBuf_buf, bufRead_writeBytes]
  split_ifs with hinside
  · exact ⟨_, List.getElem?_eq_getElem (by omega)⟩
  · exact hwritten a (by omega)

theorem StateInv.emitTx {s : State} (hs : StateInv s) {f : Frame} (hf : frameShape s.params f) :
    StateInv (s.emitTx f) := by
  obtain ⟨hbuf, hcur, hwritten, htx, htlm⟩ := hs
  exact ⟨hbuf, hcur, hwritten, List.forall_mem_append.mpr ⟨htx, List.forall_mem_singleton.mpr hf⟩, htlm⟩

theorem StateInv.emitTlm {s : State} (hs : StateInv s) {x : Sample} (hx : sampleShape s.params x) :
    StateInv (s.emitTlm x) := by
  obtain ⟨hbuf, hcur, hwritten, htx, htlm⟩ := hs
  exact ⟨hbuf, hcur, hwritten, htx, List.forall_mem_append.mpr ⟨htlm, List.forall_mem_singleton.mpr hx⟩⟩

theorem StateInv.respond {s : State} (hs : StateInv s) (r : Response) : StateInv (s.respond r) :=
  hs.congr rfl rfl rfl rfl rfl

theorem StateInv.setInputs {s : State} (hs : StateInv s) (l : List Input) : StateInv (s.setInputs l) :=
  hs.congr rfl rfl rfl rfl rfl

theorem frameShape_commandFrame (p : Params) {k : Kind} (aid : BitVec aidBits) {data : List Byte}
    (hlen : data.length = payloadLength k) : frameShape p (commandFrame p k aid data) :=
  ⟨rfl, identifier_upper _ _, ⟨k, identifier_opcode _ _, payloadLength_toNat k⟩, hlen.trans (payloadLength_toNat k).symm⟩

/-- Every operation keeps the invariant: each effect is built of updates that keep it. -/
theorem exec_keeps_invariant {i : Instr} {s t : State} (hs : StateInv s) (he : exec i s = .next t) : StateInv t := by
  cases exec_effect he with
  | cleared _ => exact hs.setCur_zero.respond _
  | appended bs _ _ _ hfits => exact (hs.write le_rfl hfits (cur_advance hfits)).respond _
  | answered r _ => exact hs.respond r
  | sent k aid data _ hlen =>
    have hle : data.length ≤ 8 := hlen ▸ payloadLength_le k
    have hcur : (BitVec.ofNat 4 data.length).toNat = 0 + data.length := by rw [BitVec.toNat_ofNat]; omega
    have hshape := frameShape_commandFrame s.params aid hlen
    rw [commandFrame, ← hlen] at hshape
    exact ((hs.write (Nat.zero_le _) ((Nat.zero_add _).trans_le hle) hcur).emitTx hshape).respond _
  | sampled _ _ rxd _ _ _ => exact (hs.emitTlm (sampleShape_scaleSample _ (unpack_inRange rxd))).respond _

/-- Settles O50: a step is an operation, a response at the port, the reset event or nothing, and each keeps the
invariant. -/
theorem stepKeepsInvariant : Obligations.StepKeepsInvariant := by
  intro s t hs h
  rcases step_cases h with ⟨-, rfl⟩ | ⟨rest, -, rfl⟩ | ⟨-, rest, -, -, -, rfl⟩ | ⟨-, rest, i, -, -, -, he⟩
  · exact hs
  · exact (hs.setInputs rest).resetEvent
  · exact (hs.setInputs rest).respond _
  · exact exec_keeps_invariant (hs.setInputs rest) he

/-- Settles O51: no operation writes the parameters, nor does a port or the reset event. -/
theorem stepKeepsParameters : Obligations.StepKeepsParameters := by
  intro s t h
  rcases step_cases h with ⟨-, rfl⟩ | ⟨rest, -, rfl⟩ | ⟨-, rest, -, -, -, rfl⟩ | ⟨-, rest, i, -, -, -, he⟩
  · rfl
  · rfl
  · rfl
  · exact (exec_params he).trans (s.setInputs_params rest)

/-! ### The opcode map -/

/-- Settles O54: eight closed words, evaluated. -/
theorem opcodeMapWordsDecode : Obligations.OpcodeMapWordsDecode := by
  unfold Obligations.OpcodeMapWordsDecode
  decide

end Sys2Proof.Machine
end

section
/-! PROOF. The host's control cycle carried out by FC (60_exceptions R175 to R182, log 18). -/

namespace Sys2Proof.Machine

/-! ### Running what the host presents -/

/-- A presented operation that completes is one step. -/
theorem runSteps_present {s t : State} {i : Instr} {rest : List Input} (hinputs : s.inputs = present i :: rest)
    (hwf : i.wellFormed s.params = true) (he : exec i (s.setInputs rest) = .next t) (k : Nat) :
    runSteps (k + 1) s = runSteps k t := by
  have hstep : step s = .next t :=
    (stepRunsPresentedOperation s _ rest i hinputs (everyOperationIsSelectable i) hwf).trans he
  rw [runSteps, hstep]

/-- A presented command with a wire form sends its frame in one step. -/
theorem runSteps_command {s : State} {i : Instr} {f : Frame} {rest : List Input} (hinputs : s.inputs = present i :: rest)
    (hwf : i.wellFormed s.params = true) (hencode : encodeFrame s.params i = some f) (k : Nat) :
    runSteps (k + 1) s = runSteps k ((s.setInputs rest).sendFrame f) :=
  runSteps_present hinputs hwf (exec_of_encodeFrame hencode) k

/-- With one command presented FC sends its frame and has nothing left to do. -/
theorem runSteps_single {s : State} {i : Instr} {f : Frame} (hinputs : s.inputs = [present i])
    (hwf : i.wellFormed s.params = true) (hencode : encodeFrame s.params i = some f) :
    ∃ t, runSteps s.inputs.length s = .next t ∧ t.inputs = [] ∧ t.tx = s.tx ++ [f] := by
  have hlength : s.inputs.length = 0 + 1 := by rw [hinputs]; rfl
  rw [hlength, runSteps_command hinputs hwf hencode 0]
  exact ⟨_, rfl, rfl, rfl⟩

/-! ### Stopping -/

theorem representable_zero (fmt : FloatFmt) : representable fmt 0 = true := by
  rw [representable, roundTo_zero, decide_eq_true_iff]

/-- The neutral operation is one that a port carries, and its frame has the kind's opcode and a payload of zeros. -/
theorem neutral_encodes {aid : BitVec aidBits} {k : Kind} {i : Instr} (h : neutral aid k = some i) (p : Params) :
    i.wellFormed p = true ∧ encodeFrame p i =
      some { ide := true, id := identifier (opcodeOf p k) aid, dlc := 4, data := [0, 0, 0, 0] } := by
  cases k with
  | duty | current | currentBrake | velocity =>
    cases h
    refine ⟨representable_zero _, ?_⟩
    rw [encodeFrame, quant_zero]
    rfl
  | position | setOrigin | positionProfile => cases h

theorem stopInputs_of_neutral {aid : BitVec aidBits} {a : Active} {i : Instr} (h : neutral aid (activeKind a) = some i)
    (policy : StopPolicy) : stopInputs policy aid a = [present i] := by
  unfold stopInputs
  rw [h]

theorem stopInputs_repeatLast {aid : BitVec aidBits} {a : Active} (h : neutral aid (activeKind a) = none) :
    stopInputs .repeatLast aid a = [present (activeInstr aid a)] := by
  unfold stopInputs
  rw [h]

theorem stopInputs_skip {aid : BitVec aidBits} {a : Active} (h : neutral aid (activeKind a) = none) :
    stopInputs .skip aid a = [] := by
  unfold stopInputs
  rw [h]

/-- Settles O56: the stopping tick presents the neutral operation, whose frame is the one FC sends. -/
theorem cancelSendsOneNeutralFrame : Obligations.CancelSendsOneNeutralFrame := by
  intro policy env s aid a hkind hinputs
  obtain ⟨i, hneutral⟩ : ∃ i, neutral aid (activeKind a) = some i := by
    rcases hkind with h | h | h | h <;> rw [h] <;> exact ⟨_, rfl⟩
  have hstop : s.inputs = [present i] := hinputs.trans (stopInputs_of_neutral hneutral policy)
  obtain ⟨hwf, hencode⟩ := neutral_encodes hneutral s.params
  exact ⟨fun hcancel => if_pos hcancel, runSteps_single hstop hwf hencode, rfl, fun _ => ⟨rfl, rfl⟩⟩

/-- Settles O57: the Position family has no neutral operation, so the policy says what the stopping tick presents. -/
theorem positionStopRepeatsLastFrame : Obligations.PositionStopRepeatsLastFrame := by
  intro env s aid a f hkind hwf hencode hinputs
  have hneutral : neutral aid (activeKind a) = none := by
    rcases hkind with h | h <;> rw [h] <;> rfl
  have hstop : s.inputs = [present (activeInstr aid a)] := hinputs.trans (stopInputs_repeatLast hneutral)
  exact ⟨runSteps_single hstop hwf hencode, rfl, stopInputs_skip hneutral⟩

/-! ### Running -/

theorem activeInstr_encodes (p : Params) (aid : BitVec aidBits) (a : Active) :
    ∃ f, encodeFrame p (activeInstr aid a) = some f := by
  cases a with
  | duty _ | current _ | currentBrake _ | velocity _ | position _ | positionProfile _ _ _ => exact ⟨_, rfl⟩

/-- The decode of a frame that a port can carry completes, adds at most one sample and touches neither the frames nor the
inputs. -/
theorem exec_decodeFeedback_wellFormed {g : Frame} (hwf : g.wellFormed = true) (expId : BitVec aidBits) (s : State) :
    ∃ t, exec (.decodeFeedback expId g) s = .next t ∧ t.inputs = s.inputs ∧ t.tx = s.tx ∧
      (t.tlm = s.tlm ∨ ∃ x, t.tlm = s.tlm ++ [x]) := by
  rcases execDecodeFeedback_cases expId g s with ⟨-, rxd, -, he⟩ | ⟨haccept, hlen, -⟩ | ⟨-, he⟩
  · exact ⟨_, he, rfl, rfl, .inr ⟨_, rfl⟩⟩
  · obtain ⟨-, hdlc, -⟩ := (accept_iff g expId).mp haccept
    have hlength : g.data.length = min g.dlc.toNat maxDlc := of_decide_eq_true hwf
    rw [hdlc] at hlength
    exact absurd hlength hlen
  · exact ⟨_, he, rfl, rfl, .inl rfl⟩

/-- Settles O58: the tick presents the active command, whose frame FC sends, and at most one frame to decode. -/
theorem runningTickSendsActiveCommand : Obligations.RunningTickSendsActiveCommand := by
  intro policy env s aid a hwf hinbound hinputs
  refine ⟨?_, fun hcancel => if_neg (by rw [hcancel]; decide), rfl⟩
  obtain ⟨f, hencode⟩ := activeInstr_encodes s.params aid a
  cases henv : env.inbound with
  | none =>
    have hone : s.inputs = [present (activeInstr aid a)] := by rw [hinputs, tick, henv]; rfl
    have hlength : s.inputs.length = 0 + 1 := by rw [hone]; rfl
    rw [hlength, runSteps_command hone hwf hencode 0]
    exact ⟨_, f, rfl, rfl, hencode, rfl, .inl rfl⟩
  | some g =>
    have htwo : s.inputs = [present (activeInstr aid a), present (.decodeFeedback aid g)] := by
      rw [hinputs, tick, henv]; rfl
    have hlength : s.inputs.length = 0 + 1 + 1 := by rw [htwo]; rfl
    obtain ⟨t, he, ht, htx, htlm⟩ := exec_decodeFeedback_wellFormed (hinbound g henv) aid
      (((s.setInputs [present (.decodeFeedback aid g)]).sendFrame f).setInputs [])
    rw [hlength, runSteps_command htwo hwf hencode 1,
      runSteps_present (i := .decodeFeedback aid g) rfl (hinbound g henv) he 0]
    exact ⟨t, f, rfl, ht, hencode, htx, htlm⟩

end Sys2Proof.Machine
end
